-- ==== Sys2Proof/Word.lean ====
section
/-! DEFINITION. The bit widths of the ZEPA machine (spec 00_scope.md rule R3): names for the bit vectors the spec speaks of.
Nothing here computes; field extraction and byte order stand in Decode.lean. -/
namespace Sys2Proof

/-- A 32-bit word: every register and every instruction (`XLEN` and `ILEN` of rule R3). -/
abbrev Word := BitVec 32

/-- One addressable memory cell (`BYTE` of rule R3). -/
abbrev Byte := BitVec 8

/-- The 6-bit opcode number of an instruction word (`OPC_BITS` of rule R3). -/
abbrev Opcode := BitVec 6

/-- A 5-bit register specifier (`REG_BITS` of rule R3). It is the raw number: values 6 to 31 name no register (rule R13). -/
abbrev Specifier := BitVec 5

/-- The 16-bit immediate of the I format (`IMM_BITS` of rule R3). -/
abbrev Imm := BitVec 16

end Sys2Proof
end

