-- ==== Sys2Proof/Config.lean ====
section
/-! DEFINITION. What one ZEPA machine is created with and never changes: the memory size and the opcode numbers that the source
leaves open (spec 00_scope.md rules R3 and R4). The machine has no free value (93_implementation_defined.md: no entry is treated
as `any value`), so this file has no opaque constant. -/
namespace Sys2Proof

/-- `OP_MV`, the one opcode number the source gives (rule R3): 12. -/
def opMv : Opcode := 12#6

/-- The parameters of rule R4. -/
structure Config where
  /-- `MEM_SIZE`, the number of memory cells. -/
  memSize : Nat
  opAdd : Opcode
  opSub : Opcode
  opCmp : Opcode
  opJump : Opcode
  opLoad : Opcode
  opStore : Opcode
  deriving DecidableEq, Repr

/-- The seven assigned opcode numbers, in the order of rule R56. -/
def Config.opcodes (c : Config) : List Opcode :=
  [opMv, c.opAdd, c.opSub, c.opCmp, c.opJump, c.opLoad, c.opStore]

/-- The constraints rule R4 puts on the parameters: `4 <= MEM_SIZE <= 2^32`, and seven opcode numbers pairwise distinct. -/
abbrev Config.Wf (c : Config) : Prop :=
  4 ≤ c.memSize ∧ c.memSize ≤ 4294967296 ∧ c.opcodes.Nodup

/-- The default opcode numbers of rule R4 (the spec's own choice D1) with a given `MEM_SIZE`.
UNVERIFIED, unsafe (log 3): no source document confirms the six numbers. -/
def Config.withDefaultOpcodes (memSize : Nat) : Config :=
  { memSize := memSize
    opAdd := 13#6, opSub := 14#6, opCmp := 15#6
    opJump := 16#6, opLoad := 17#6, opStore := 18#6 }

/-- The configuration of `State.reset`. DESIGN CHOICE, unsafe (log 2): the spec leaves `MEM_SIZE` OPEN (D7); 65536 is the least
size at which every address an instruction can name exists (rule R31). -/
def Config.atReset : Config := Config.withDefaultOpcodes 65536

end Sys2Proof
end

