-- ==== Sys2Proof/Syntax.lean ====
section
/-! DEFINITION. The instructions: one constructor for each row of spec/opcode_table.json, in the table's order. A constructor
holds the fields its instruction uses (10_state.md rule R14), as raw numbers: register validity is checked when the instruction
executes, not when it is decoded (30_encoding.md rule R69). Fields the core ignores (rule R61: the low eleven bits of the R
format, the low five of the I format, CMP's `rd`, JUMP's `reg`) are not held (log 8). -/
namespace Sys2Proof

/-- The ZEPA instruction set (rule R56), with the halt sentinel as its first row. -/
inductive Instr where
  /-- The zero word (rules R59, R93). -/
  | halt
  /-- `MV Wd, #imm` (rule R70). -/
  | mv (reg : Specifier) (imm : Imm)
  /-- `ADD Wd, Ws1, Ws2` (rule R71). -/
  | add (rd rs1 rs2 : Specifier)
  /-- `SUB Wd, Ws1, Ws2` (rule R72). -/
  | sub (rd rs1 rs2 : Specifier)
  /-- `CMP Ws1, Ws2` (rule R73). -/
  | cmp (rs1 rs2 : Specifier)
  /-- `JUMP addr` (rule R80). -/
  | jump (imm : Imm)
  /-- `LOAD Wd, #imm` (rule R85). -/
  | load (reg : Specifier) (imm : Imm)
  /-- `STORE Ws, #addr` (rule R86). -/
  | store (reg : Specifier) (imm : Imm)
  deriving DecidableEq, Repr

/-- The specifier fields an instruction uses, in the order they are checked (rule R14's column "used specifier fields", order of
rule R75). -/
def Instr.usedSpecifiers : Instr → List Specifier
  | .halt => []
  | .mv reg _ => [reg]
  | .add rd rs1 rs2 => [rd, rs1, rs2]
  | .sub rd rs1 rs2 => [rd, rs1, rs2]
  | .cmp rs1 rs2 => [rs1, rs2]
  | .jump _ => []
  | .load reg _ => [reg]
  | .store reg _ => [reg]

end Sys2Proof
end

