-- ==== Sys2Proof/Machine/State.lean ====
section
/-! DEFINITION. The machine's state as plain data (spec 10_state.md rule R10), the reasons a call can stop, and the state right
after reset. -/
namespace Sys2Proof.Machine

/-! ## Registers -/

/-- The six general-purpose registers (rule R11). -/
inductive Gpr where
  | w0 | w1 | w2 | w3 | w4 | w5
  deriving DecidableEq, Repr

/-- The contents of the six general-purpose registers (rule R11). -/
structure GprFile where
  w0 : Word
  w1 : Word
  w2 : Word
  w3 : Word
  w4 : Word
  w5 : Word
  deriving DecidableEq, Repr

/-! ## Faults of the machine: state, not stops (60_exceptions.md) -/

/-- The two kinds of fault (rule R24). -/
inductive FaultKind where
  | decodeFault
  | memoryFault
  deriving DecidableEq, Repr

/-- The four causes, symbols without numbers (rule R117). -/
inductive FaultCause where
  | unknownOpcode
  | invalidRegister
  | fetchOutOfBounds
  | storeOutOfBounds
  deriving DecidableEq, Repr

/-- The record a fault latches (rule R24; field by field, rule R113). -/
structure FaultRecord where
  kind : FaultKind
  cause : FaultCause
  /-- The address of the faulting instruction. -/
  addr : Word
  /-- The instruction word, absent for a fetch fault. -/
  word : Option Word
  /-- The out-of-bounds memory address, for a memory fault. -/
  target : Option Nat
  deriving DecidableEq, Repr

/-- The run state (rule R23): `running` is the source's Fetching; `halted` and `faulted` are terminal. -/
inductive RunState where
  | running
  | halted
  | faulted (record : FaultRecord)
  deriving DecidableEq, Repr

/-! ## Memory (rule R25) -/

/-- Memory: (address, byte) pairs in canonical form (`Memory.wf`). -/
abbrev Memory := List Host.Cell

/-- What an address that is not listed reads: 0x00, the spec's reset value of every byte outside the image (rules R26, R131). -/
def Memory.unlisted : Byte := 0#8

/-- Addresses at least `lo` and strictly rising, and no entry equal to what an unlisted address reads. -/
def Memory.wfFrom (lo : Nat) : Memory → Bool
  | [] => true
  | (a, b) :: m => decide (lo ≤ a) && decide (b ≠ Memory.unlisted) && Memory.wfFrom (a + 1) m

/-- The canonical form: two memories with the same bytes are the same list. -/
def Memory.wf (m : Memory) : Bool := Memory.wfFrom 0 m

/-- Every listed address is below `n`: with `n` = `MEM_SIZE`, no cell exists outside memory (rule R29 (e)). -/
def Memory.within (n : Nat) (m : Memory) : Bool := m.all (fun cell => decide (cell.1 < n))

/-! ## The state -/

/-- The complete state (rule R10). `cfg` is not state of the spec: it is the configuration the machine was created with, carried
because a step takes one value (log 1); no step changes it. -/
structure State where
  cfg : Config
  gprs : GprFile
  /-- Program counter: a byte address (rule R15). -/
  pc : Word
  /-- Stack pointer: no rule reads or writes it (rule R20). -/
  sp : Word
  /-- Instruction register: the last word fetched (rule R19). -/
  ir : Word
  /-- Status register: the result of the last CMP (rule R18). -/
  sr : Word
  /-- Memory data register: no rule reads or writes it (rule R21). -/
  mdr : Word
  /-- Memory address register: no rule reads or writes it (rule R21). -/
  mar : Word
  mem : Memory
  run : RunState
  deriving DecidableEq, Repr

/-- Reasons to stop that are no state of the machine. NO STEP ANSWERS A FAULT: the machine's own faults are taken, as the spec
describes them, and are next states whose `run` is `faulted` (log 6). -/
inductive Fault where
  /-- Raised by the host's inspection `readMemory` at an address that does not exist (`a >= MEM_SIZE`), an operation rule R99 does
  not offer. Safe: it refuses a read, and no step reaches it. -/
  | noSuchAddress (addr : Nat)
  deriving DecidableEq, Repr

/-- Reasons for which there is no machine or no meaning. NO STEP ANSWERS A REFUSAL. -/
inductive Refusal where
  /-- The form the host fixes for an instruction without a meaning. Raised by nobody: every instruction has its meaning. Safe. -/
  | notModelled (mnemonic : String)
  /-- Raised by `State.create`: the image is longer than memory, so reset yields no machine (rule R132). Safe. -/
  | imageTooLong (length memSize : Nat)
  /-- Raised by `State.create`: the parameters break the constraints of rule R4, so there is no such machine. Safe. -/
  | badConfiguration
  deriving DecidableEq, Repr

/-- The registers after reset (rule R26): every general register 0 (the spec's own choice D8). -/
def GprFile.zero : GprFile := { w0 := 0#32, w1 := 0#32, w2 := 0#32, w3 := 0#32, w4 := 0#32, w5 := 0#32 }

/-- A machine of a given configuration and initial memory, every register as rule R26 leaves it. -/
def State.fresh (c : Config) (m : Memory) : State :=
  { cfg := c, gprs := GprFile.zero
    pc := 0#32, sp := 0#32, ir := 0#32, sr := 0#32, mdr := 0#32, mar := 0#32
    mem := m, run := .running }

/-- The machine right after reset with the empty image (rules R26, R130, R133), under the configuration of log 2. -/
def State.reset : State := State.fresh Config.atReset []

end Sys2Proof.Machine
end

