-- ==== Sys2Proof/Machine/Flags.lean ====
section
/-! DEFINITION. The only flag computation of the machine: the value CMP writes to SR (10_state.md rule R18). ADD and SUB set
nothing (rules R71, R72, R74). -/
namespace Sys2Proof.Machine

/-- The whole-register result of CMP: 0 equal, 1 less, 2 greater; unsigned; equality tested first
(40_alu_mv_add_sub_cmp.md rule R73). -/
def compareStatus (a b : Word) : Word :=
  if a = b then 0#32 else if a < b then 1#32 else 2#32

end Sys2Proof.Machine
end

