-- ==== Sys2Proof/WellFormed.lean ====
section
/-! DEFINITION. When an instruction names only registers that exist. The machine runs ill-formed instructions too: they raise
`DecodeFault(invalid_register)` (60_exceptions.md rule R112). -/
namespace Sys2Proof

/-- A specifier that names one of W0 to W5 (10_state.md rules R12, R13). -/
def Specifier.valid (f : Specifier) : Bool := decide (f.toNat ≤ 5)

/-- Every used specifier of the instruction names a register: the instruction "executes" in the classification of rule R62. -/
def Instr.wf (i : Instr) : Bool := i.usedSpecifiers.all Specifier.valid

end Sys2Proof
end

