-- ==== Sys2Proof/Decode.lean ====
section
/-! DEFINITION. The decoder and, after it, the encoder (spec 30_encoding.md). Decoding is total: it answers for every word of
every configuration (rule R69). -/
namespace Sys2Proof

/-! ## Byte order (20_memory.md rule R32) -/

/-- The word whose four bytes, at rising addresses, are given: the byte at the lowest address is the most significant. -/
def wordOfBytes (b0 b1 b2 b3 : Byte) : Word :=
  (b0.setWidth 32 <<< 24) ||| (b1.setWidth 32 <<< 16) ||| (b2.setWidth 32 <<< 8) ||| b3.setWidth 32

/-- Byte `k` of a word as it lies in memory at the word's address plus `k`, for `k` = 0, 1, 2, 3: bits `31 - 8k : 24 - 8k`. -/
def byteOfWord (w : Word) (k : Nat) : Byte := w.extractLsb' (24 - 8 * k) 8

/-- The four bytes of a word at rising addresses: `bytes(w)` of rule R64. -/
def bytesOfWord (w : Word) : List Byte :=
  [byteOfWord w 0, byteOfWord w 1, byteOfWord w 2, byteOfWord w 3]

/-! ## Fields (rules R52 to R55) -/

/-- Bits 31:26, in both formats. -/
def opcodeField (w : Word) : Opcode := w.extractLsb' 26 6

/-- Bits 25:21: `rd` of the R format, `reg` of the I format. -/
def firstSpecifier (w : Word) : Specifier := w.extractLsb' 21 5

/-- Bits 20:16: `rs1` of the R format. -/
def rs1Field (w : Word) : Specifier := w.extractLsb' 16 5

/-- Bits 15:11: `rs2` of the R format. -/
def rs2Field (w : Word) : Specifier := w.extractLsb' 11 5

/-- Bits 10:6 of the R format, reserved (rule R53). -/
def functHiField (w : Word) : BitVec 5 := w.extractLsb' 6 5

/-- Bits 5:0 of the R format, reserved (rule R53). -/
def functLoField (w : Word) : BitVec 6 := w.extractLsb' 0 6

/-- Bits 20:5: the immediate of the I format (rule R57). -/
def immField (w : Word) : Imm := w.extractLsb' 5 16

/-- Bits 4:0 of the I format, unused (rule R54). -/
def unusedField (w : Word) : BitVec 5 := w.extractLsb' 0 5

/-- The three opcodes that choose the R format (rule R51); every other opcode takes the I format. -/
def isROpcode (c : Config) (op : Opcode) : Bool := op == c.opAdd || op == c.opSub || op == c.opCmp

/-- What the decoder extracts from a word (rule R55). -/
inductive Fields where
  | rFormat (opcode : Opcode) (rd rs1 rs2 : Specifier) (functHi : BitVec 5) (functLo : BitVec 6)
  | iFormat (opcode : Opcode) (reg : Specifier) (imm : Imm)
  deriving DecidableEq, Repr

/-- Field extraction as rule R55 performs it: the format follows from the opcode alone. -/
def extractFields (c : Config) (w : Word) : Fields :=
  if isROpcode c (opcodeField w) then
    .rFormat (opcodeField w) (firstSpecifier w) (rs1Field w) (rs2Field w) (functHiField w) (functLoField w)
  else
    .iFormat (opcodeField w) (firstSpecifier w) (immField w)

/-! ## Decoding -/

/-- Why bytes are no instruction. -/
inductive DecodeReject where
  /-- Bits 31:26 of a non-zero word are not one of the seven assigned opcode numbers (rule R60). -/
  | unknownOpcode (opcode : Opcode)
  /-- Fewer than four bytes: no word (rule R50). -/
  | tooFewBytes
  deriving DecidableEq, Repr

/-- The instruction an R-format opcode selects; the reserved fields are discarded (rules R53, R55). -/
def decodeR (c : Config) (op : Opcode) (rd rs1 rs2 : Specifier) : Except DecodeReject Instr :=
  if op = c.opAdd then .ok (.add rd rs1 rs2)
  else if op = c.opSub then .ok (.sub rd rs1 rs2)
  else if op = c.opCmp then .ok (.cmp rs1 rs2)
  else .error (.unknownOpcode op)

/-- The instruction an I-format opcode selects (rules R51, R56, R60). -/
def decodeI (c : Config) (op : Opcode) (reg : Specifier) (imm : Imm) : Except DecodeReject Instr :=
  if op = opMv then .ok (.mv reg imm)
  else if op = c.opJump then .ok (.jump imm)
  else if op = c.opLoad then .ok (.load reg imm)
  else if op = c.opStore then .ok (.store reg imm)
  else .error (.unknownOpcode op)

/-- The decoder: the zero word is the halt sentinel, matched first on all 32 bits (rules R56, R59); any other word is taken apart
by rule R55 and its opcode looked up in the map of rule R56. -/
def decode (c : Config) (w : Word) : Except DecodeReject Instr :=
  if w = 0#32 then .ok .halt
  else
    match extractFields c w with
    | .rFormat op rd rs1 rs2 _ _ => decodeR c op rd rs1 rs2
    | .iFormat op reg imm => decodeI c op reg imm

/-- The decoder on bytes at rising addresses: the instruction and the bytes that follow it (rule R50). -/
def decodeBytes (c : Config) : List Byte → Except DecodeReject (Instr × List Byte)
  | b0 :: b1 :: b2 :: b3 :: rest =>
    match decode c (wordOfBytes b0 b1 b2 b3) with
    | .ok i => .ok (i, rest)
    | .error e => .error e
  | _ => .error .tooFewBytes

/-! ## Encoding (rule R64) -/

/-- `encodeR` of rule R64: the eleven reserved bits are 0. -/
def encodeR (op : Opcode) (rd rs1 rs2 : Specifier) : Word :=
  (op.setWidth 32 <<< 26) ||| (rd.setWidth 32 <<< 21) ||| (rs1.setWidth 32 <<< 16) ||| (rs2.setWidth 32 <<< 11)

/-- `encodeI` of rule R64: the five unused bits are 0. -/
def encodeI (op : Opcode) (reg : Specifier) (imm : Imm) : Word :=
  (op.setWidth 32 <<< 26) ||| (reg.setWidth 32 <<< 21) ||| (imm.setWidth 32 <<< 5)

/-- The word of an instruction; CMP's `rd` and JUMP's `reg` are forced to 0 (rules R52, R54). -/
def encode (c : Config) : Instr → Word
  | .halt => 0#32
  | .mv reg imm => encodeI opMv reg imm
  | .add rd rs1 rs2 => encodeR c.opAdd rd rs1 rs2
  | .sub rd rs1 rs2 => encodeR c.opSub rd rs1 rs2
  | .cmp rs1 rs2 => encodeR c.opCmp 0#5 rs1 rs2
  | .jump imm => encodeI c.opJump 0#5 imm
  | .load reg imm => encodeI c.opLoad reg imm
  | .store reg imm => encodeI c.opStore reg imm

/-- The bytes of an instruction at rising addresses (rule R64). -/
def encodeBytes (c : Config) (i : Instr) : List Byte := bytesOfWord (encode c i)

/-- Canonical words: those the source's encoder can produce (rule R63). -/
def canonicalWord (c : Config) (w : Word) : Bool :=
  let op := opcodeField w
  let r := firstSpecifier w
  if isROpcode c op then
    Specifier.valid r && Specifier.valid (rs1Field w) && Specifier.valid (rs2Field w) &&
      functHiField w == 0#5 && functLoField w == 0#6 && (op != c.opCmp || r == 0#5)
  else
    (op == opMv || op == c.opJump || op == c.opLoad || op == c.opStore) &&
      Specifier.valid r && unusedField w == 0#5 && (op != c.opJump || r == 0#5)

/-! ## The opcode table's numbering of bits -/

/-- The instruction the decoder reads from a table word: the word's four bytes are laid out big-endian and decoded under the
default opcode numbers, which are the table's (rule R4). The memory size plays no part in decoding. -/
def decodeTableWord (nbits w : Nat) : Option Instr :=
  match decodeBytes (Config.withDefaultOpcodes 65536) (bytesOfWord (BitVec.ofNat 32 (w % 2 ^ nbits))) with
  | .ok (i, _) => some i
  | .error _ => none

end Sys2Proof
end

