-- ==== Sys2Proof/Machine/Operands.lean ====
section
/-! DEFINITION. The operand forms: the register specifier, the zero-extended immediate, the low byte of a register
(30_encoding.md rules R57, R58; 42_load_store.md rule R86). There are no others (rule R58). -/
namespace Sys2Proof.Machine

/-- The register a specifier names: `Wi` for `i` = 0 to 5, none for 6 to 31 (10_state.md rules R12, R13; `gpr` of rule R7). -/
def gpr (f : Specifier) : Option Gpr :=
  match f.toNat with
  | 0 => some .w0
  | 1 => some .w1
  | 2 => some .w2
  | 3 => some .w3
  | 4 => some .w4
  | 5 => some .w5
  | _ => none

/-- `zext_32(imm)`: the 32-bit value numerically equal to the immediate (rules R6, R57). -/
def zext32 (imm : Imm) : Word := imm.setWidth 32

/-- `v[7:0]`, the byte STORE writes (rules R37, R86). -/
def lowByte (v : Word) : Byte := v.extractLsb' 0 8

end Sys2Proof.Machine

namespace Sys2Proof
open Machine

/-- The general register an instruction writes (10_state.md rule R14). -/
def Instr.destination : Instr → Option Gpr
  | .halt => none
  | .mv reg _ => gpr reg
  | .add rd _ _ => gpr rd
  | .sub rd _ _ => gpr rd
  | .cmp _ _ => none
  | .jump _ => none
  | .load reg _ => gpr reg
  | .store _ _ => none

end Sys2Proof
end

