-- ==== Sys2Proof/Machine/Ops.lean ====
section
/-! DEFINITION. The named operations every meaning is built from: register reads and writes, the memory primitives, the fetch,
and the taking of a fault. -/
namespace Sys2Proof.Machine

/-! ## General registers (10_state.md rule R11) -/

/-- Read one register of the file. -/
def GprFile.read (g : GprFile) : Gpr → Word
  | .w0 => g.w0
  | .w1 => g.w1
  | .w2 => g.w2
  | .w3 => g.w3
  | .w4 => g.w4
  | .w5 => g.w5

/-- Write one register of the file. -/
def GprFile.write (g : GprFile) (r : Gpr) (v : Word) : GprFile :=
  match r with
  | .w0 => { g with w0 := v }
  | .w1 => { g with w1 := v }
  | .w2 => { g with w2 := v }
  | .w3 => { g with w3 := v }
  | .w4 => { g with w4 := v }
  | .w5 => { g with w5 := v }

/-- `x[r]`. -/
def State.readGpr (s : State) (r : Gpr) : Word := s.gprs.read r

/-- `x[r] <- v`. -/
def State.writeGpr (s : State) (r : Gpr) (v : Word) : State := { s with gprs := s.gprs.write r v }

/-! ## Special registers, memory and run state, one update each -/

/-- `pc <- v` (rule R16). -/
def State.setPc (s : State) (v : Word) : State := { s with pc := v }

/-- `ir <- v` (rule R19). -/
def State.setIr (s : State) (v : Word) : State := { s with ir := v }

/-- `sr <- v` (rule R18). -/
def State.setSr (s : State) (v : Word) : State := { s with sr := v }

/-- Replace the memory. -/
def State.setMem (s : State) (m : Memory) : State := { s with mem := m }

/-- `run <- r` (rule R23). -/
def State.setRun (s : State) (r : RunState) : State := { s with run := r }

/-! ## Memory as data -/

/-- The byte at an address (rule R37: the last byte written there, or what reset left). -/
def Memory.read : Memory → Nat → Byte
  | [], _ => Memory.unlisted
  | (k, b) :: m, a => if k = a then b else Memory.read m a

/-- Unlist an address. -/
def Memory.erase : Memory → Nat → Memory
  | [], _ => []
  | (k, b) :: m, a => if k = a then Memory.erase m a else (k, b) :: Memory.erase m a

/-- List an address with a byte, in address order. -/
def Memory.insert : Memory → Nat → Byte → Memory
  | [], a, v => [(a, v)]
  | (k, b) :: m, a, v =>
    if a < k then (a, v) :: (k, b) :: m
    else if a = k then (a, v) :: m
    else (k, b) :: Memory.insert m a v

/-- Write one byte, keeping the canonical form: writing what an unlisted address reads removes the entry. -/
def Memory.write (m : Memory) (a : Nat) (v : Byte) : Memory :=
  if v = Memory.unlisted then Memory.erase m a else Memory.insert m a v

/-- The memory that holds `bytes` from address `a` on and the reset value elsewhere (70_reset_and_hazards.md rule R131). -/
def Memory.ofImage (a : Nat) : List Byte → Memory
  | [] => []
  | b :: bytes => if b = Memory.unlisted then Memory.ofImage (a + 1) bytes else (a, b) :: Memory.ofImage (a + 1) bytes

/-! ## The access primitives (20_memory.md rules R33, R34) -/

/-- `MemRead(addr, 4)`: the big-endian word at `addr`, or none where the access is not wholly inside memory. The bounds check is
made in natural numbers, before any byte is read (rules R33, R35). -/
def State.memRead4 (s : State) (addr : Word) : Option Word :=
  let a := addr.toNat
  if s.cfg.memSize < a + 4 then none
  else some (wordOfBytes (Memory.read s.mem a) (Memory.read s.mem (a + 1)) (Memory.read s.mem (a + 2)) (Memory.read s.mem (a + 3)))

/-- `MemWrite(addr, 1, v)`: the state with the one cell written, or none where the cell does not exist (rules R34, R35). -/
def State.memWrite1 (s : State) (addr : Word) (v : Byte) : Option State :=
  if s.cfg.memSize ≤ addr.toNat then none
  else some (s.setMem (Memory.write s.mem addr.toNat v))

/-! ## Taking a fault (60_exceptions.md rules R113, R114). There is no return from one (rule R121). -/

/-- The kind a cause is grouped under (rule R117). -/
def FaultCause.kind : FaultCause → FaultKind
  | .unknownOpcode => .decodeFault
  | .invalidRegister => .decodeFault
  | .fetchOutOfBounds => .memoryFault
  | .storeOutOfBounds => .memoryFault

/-- Fault entry (rule R114): latch the record and enter the terminal state Faulted. Nothing else changes: no saved register, no
handler address, and `PC` and `IR` stay as the fetch left them (rule R113, decision D6). -/
def State.raise (s : State) (cause : FaultCause) (addr : Word) (word : Option Word) (target : Option Nat) : State :=
  s.setRun (.faulted { kind := cause.kind, cause := cause, addr := addr, word := word, target := target })

/-- The address `A` of the instruction being executed: its fetch left `PC` at `A +_32 4` (rule R15), and no meaning writes `PC`
before its checks are done (rule R75). DEDUCED, safe (log 7). -/
def State.instrAddr (s : State) : Word := s.pc - 4#32

/-- A fault raised after the fetch, in decode or execute: the record holds the instruction's word and address (rule R113). -/
def State.raiseFetched (s : State) (cause : FaultCause) (target : Option Nat) : State :=
  s.raise cause s.instrAddr (some s.ir) target

/-- The fault of a fetch that is not wholly inside memory (rules R91, R113): `PC` and `IR` unchanged, no word. -/
def State.raiseFetch (s : State) : State :=
  s.raise .fetchOutOfBounds s.pc none (some s.pc.toNat)

/-- `k (gpr f)` where the specifier names a register; otherwise `DecodeFault(invalid_register)` and no write (rules R13, R112). -/
def State.withGpr (s : State) (f : Specifier) (k : Gpr → Host.Outcome State Fault Refusal) :
    Host.Outcome State Fault Refusal :=
  match gpr f with
  | some r => k r
  | none => .next (s.raiseFetched .invalidRegister none)

/-! ## Fetch (43_loop_and_halt.md rule R91) -/

/-- The state a successful fetch of `w` leaves: `ir <- w`, `pc <- A +_32 4`, nothing else. -/
def State.fetched (s : State) (w : Word) : State := (s.setIr w).setPc (s.pc + 4#32)

/-- The fetch: none where the four bytes at `PC` are not all in bounds. -/
def State.fetch (s : State) : Option State := (s.memRead4 s.pc).map s.fetched

end Sys2Proof.Machine
end

