-- ==== Sys2Proof/Machine/Alu.lean ====
section
/-! DEFINITION. MV, ADD, SUB and CMP (40_alu_mv_add_sub_cmp.md). Each meaning is the execute phase of one step: `IR` holds the
word and `PC` the instruction's address plus 4. Specifiers are checked in the order `rd`, `rs1`, `rs2` before any write (rule
R75). -/
namespace Sys2Proof.Machine

/-- `MV Wd, #imm` (rule R70). -/
def execMv (reg : Specifier) (imm : Imm) (s : State) : Host.Outcome State Fault Refusal :=
  s.withGpr reg fun d => .next (s.writeGpr d (zext32 imm))

/-- `ADD Wd, Ws1, Ws2` (rule R71): the sum modulo 2^32, no flag. -/
def execAdd (rd rs1 rs2 : Specifier) (s : State) : Host.Outcome State Fault Refusal :=
  s.withGpr rd fun d => s.withGpr rs1 fun a => s.withGpr rs2 fun b =>
    .next (s.writeGpr d (s.readGpr a + s.readGpr b))

/-- `SUB Wd, Ws1, Ws2` (rule R72): first source minus second, modulo 2^32, no flag. -/
def execSub (rd rs1 rs2 : Specifier) (s : State) : Host.Outcome State Fault Refusal :=
  s.withGpr rd fun d => s.withGpr rs1 fun a => s.withGpr rs2 fun b =>
    .next (s.writeGpr d (s.readGpr a - s.readGpr b))

/-- `CMP Ws1, Ws2` (rule R73): the tri-state result to `SR`; no general register changes. -/
def execCmp (rs1 rs2 : Specifier) (s : State) : Host.Outcome State Fault Refusal :=
  s.withGpr rs1 fun a => s.withGpr rs2 fun b =>
    .next (s.setSr (compareStatus (s.readGpr a) (s.readGpr b)))

end Sys2Proof.Machine
end

