-- ==== Sys2Proof/Machine/Halt.lean ====
section
/-! DEFINITION. The halt sentinel (43_loop_and_halt.md rule R93). -/
namespace Sys2Proof.Machine

/-- HALT (rule R93): undo the fetch's advance of `PC` and enter Halted; `IR` keeps the zero just fetched (conflict C4). -/
def execHalt (s : State) : Host.Outcome State Fault Refusal :=
  .next ((s.setPc (s.pc - 4#32)).setRun .halted)

end Sys2Proof.Machine
end

