-- ==== Sys2Proof/Machine/Jump.lean ====
section
/-! DEFINITION. The only control transfer (41_jump.md). -/
namespace Sys2Proof.Machine

/-- `JUMP addr` (rule R80): absolute, unconditional, any 16-bit target; raises nothing itself. -/
def execJump (imm : Imm) (s : State) : Host.Outcome State Fault Refusal :=
  .next (s.setPc (zext32 imm))

end Sys2Proof.Machine
end

