-- ==== Sys2Proof/Machine/LoadStore.lean ====
section
/-! DEFINITION. LOAD and STORE (42_load_store.md). -/
namespace Sys2Proof.Machine

/-- `LOAD Wd, #imm` (rule R85): the literal number in the immediate field; memory is not read and never faults. -/
def execLoad (reg : Specifier) (imm : Imm) (s : State) : Host.Outcome State Fault Refusal :=
  s.withGpr reg fun d => .next (s.writeGpr d (zext32 imm))

/-- `STORE Ws, #addr` (rule R86): one byte, the register's low eight bits, at the absolute address. The register is checked before
the bounds (60_exceptions.md rule R118). -/
def execStore (reg : Specifier) (imm : Imm) (s : State) : Host.Outcome State Fault Refusal :=
  s.withGpr reg fun r =>
    match s.memWrite1 (zext32 imm) (lowByte (s.readGpr r)) with
    | some t => .next t
    | none => .next (s.raiseFetched .storeOutOfBounds (some (zext32 imm).toNat))

end Sys2Proof.Machine
end

