-- ==== Sys2Proof/Machine/Dispatch.lean ====
section
/-! DEFINITION. The dispatch: one arm for each instruction (43_loop_and_halt.md rule R95). -/
namespace Sys2Proof.Machine

def exec (i : Instr) (s : State) : Host.Outcome State Fault Refusal :=
  match i with
  | .halt => Sys2Proof.Machine.execHalt s
  | .mv reg imm => Sys2Proof.Machine.execMv reg imm s
  | .add rd rs1 rs2 => Sys2Proof.Machine.execAdd rd rs1 rs2 s
  | .sub rd rs1 rs2 => Sys2Proof.Machine.execSub rd rs1 rs2 s
  | .cmp rs1 rs2 => Sys2Proof.Machine.execCmp rs1 rs2 s
  | .jump imm => Sys2Proof.Machine.execJump imm s
  | .load reg imm => Sys2Proof.Machine.execLoad reg imm s
  | .store reg imm => Sys2Proof.Machine.execStore reg imm s

end Sys2Proof.Machine
end

