-- ==== Sys2Proof/Machine/Step.lean ====
section
/-! DEFINITION. One step: fetch, halt check, decode, execute (43_loop_and_halt.md rule R96), and the placing of a word where the
next step fetches it. -/
namespace Sys2Proof.Machine

/-- One step (rule R96). A step in Halted or Faulted changes nothing (rule R97). The halt check (rule R92) is the first row of the
decoder, which compares all 32 bits of `IR` with zero before it looks at the opcode (rule R59). -/
def step (s : State) : Host.Outcome State Fault Refusal :=
  match s.run with
  | .halted => .next s
  | .faulted _ => .next s
  | .running =>
    match s.fetch with
    | none => .next s.raiseFetch
    | some t =>
      match decode t.cfg t.ir with
      | .ok i => exec i t
      | .error _ => .next (t.raiseFetched .unknownOpcode none)

/-- `s` with the table word `w` stored where the next step fetches: its four bytes, big-endian, at `PC`. Where `s` could not fetch
at all, the fetch is made possible: `run` is Running, and a `PC` whose four bytes are not all in memory becomes 0, whose bytes
always are (`4 <= MEM_SIZE`, rule R4). Neither changes anything at `State.reset` (log 10). -/
def State.withFetchWord (s : State) (nbits w : Nat) : State :=
  let word : Word := BitVec.ofNat 32 (w % 2 ^ nbits)
  let pc : Word := if s.cfg.memSize < s.pc.toNat + 4 then 0#32 else s.pc
  let a := pc.toNat
  let m0 := Memory.write s.mem a (byteOfWord word 0)
  let m1 := Memory.write m0 (a + 1) (byteOfWord word 1)
  let m2 := Memory.write m1 (a + 2) (byteOfWord word 2)
  let m3 := Memory.write m2 (a + 3) (byteOfWord word 3)
  { s with mem := m3, pc := pc, run := .running }

end Sys2Proof.Machine
end

