-- ==== Sys2Proof/Machine/Reference.lean ====
section
/-! DEFINITION. A second rendering of one step: the pseudocode of 43_loop_and_halt.md rule R96 line by line, in natural numbers,
from the raw word, with none of the decoder, the meanings or the shared operations that `step` uses (it shares only the state, the
register file's and the memory's own reads and writes). It is the yardstick of a statement that `step` equals it; no step calls it. -/
namespace Sys2Proof.Machine

/-- `w[hi:lo]` of a word given as a number (00_scope.md rule R5). -/
def wordSlice (w hi lo : Nat) : Nat := w / 2 ^ lo % 2 ^ (hi - lo + 1)

/-- `x[i]` for a register number 0 to 5. -/
def xRead (s : State) (i : Nat) : Nat :=
  if i = 0 then s.gprs.w0.toNat
  else if i = 1 then s.gprs.w1.toNat
  else if i = 2 then s.gprs.w2.toNat
  else if i = 3 then s.gprs.w3.toNat
  else if i = 4 then s.gprs.w4.toNat
  else s.gprs.w5.toNat

/-- `x[i] <- v` for a register number 0 to 5. -/
def xWrite (s : State) (i v : Nat) : State :=
  if i = 0 then { s with gprs := { s.gprs with w0 := BitVec.ofNat 32 v } }
  else if i = 1 then { s with gprs := { s.gprs with w1 := BitVec.ofNat 32 v } }
  else if i = 2 then { s with gprs := { s.gprs with w2 := BitVec.ofNat 32 v } }
  else if i = 3 then { s with gprs := { s.gprs with w3 := BitVec.ofNat 32 v } }
  else if i = 4 then { s with gprs := { s.gprs with w4 := BitVec.ofNat 32 v } }
  else { s with gprs := { s.gprs with w5 := BitVec.ofNat 32 v } }

/-- `mem[a]` as a number. -/
def memAt (s : State) (a : Nat) : Nat := (Memory.read s.mem a).toNat

/-- The lines of rule R96 after the halt check: `s` has `ir` = `w` and `pc` = `A +_32 4`. -/
def referenceExecute (s : State) (A w : Nat) : State :=
  let op := wordSlice w 31 26
  let f1 := wordSlice w 25 21
  let f2 := wordSlice w 20 16
  let f3 := wordSlice w 15 11
  let imm := wordSlice w 20 5
  let decodeFault (cause : FaultCause) : State :=
    { s with run := .faulted { kind := .decodeFault, cause := cause, addr := BitVec.ofNat 32 A, word := some (BitVec.ofNat 32 w), target := none } }
  if op = 12 then
    if 5 < f1 then decodeFault .invalidRegister else xWrite s f1 imm
  else if op = s.cfg.opAdd.toNat then
    if 5 < f1 ∨ 5 < f2 ∨ 5 < f3 then decodeFault .invalidRegister
    else xWrite s f1 ((xRead s f2 + xRead s f3) % 2 ^ 32)
  else if op = s.cfg.opSub.toNat then
    if 5 < f1 ∨ 5 < f2 ∨ 5 < f3 then decodeFault .invalidRegister
    else xWrite s f1 ((2 ^ 32 + xRead s f2 - xRead s f3) % 2 ^ 32)
  else if op = s.cfg.opCmp.toNat then
    if 5 < f2 ∨ 5 < f3 then decodeFault .invalidRegister
    else
      { s with sr := if xRead s f2 = xRead s f3 then 0#32 else if xRead s f2 < xRead s f3 then 1#32 else 2#32 }
  else if op = s.cfg.opJump.toNat then
    { s with pc := BitVec.ofNat 32 imm }
  else if op = s.cfg.opLoad.toNat then
    if 5 < f1 then decodeFault .invalidRegister else xWrite s f1 imm
  else if op = s.cfg.opStore.toNat then
    if 5 < f1 then decodeFault .invalidRegister
    else if s.cfg.memSize ≤ imm then
      { s with run := .faulted { kind := .memoryFault, cause := .storeOutOfBounds, addr := BitVec.ofNat 32 A, word := some (BitVec.ofNat 32 w), target := some imm } }
    else { s with mem := Memory.write s.mem imm (BitVec.ofNat 8 (xRead s f1 % 2 ^ 8)) }
  else decodeFault .unknownOpcode

/-- Rule R96, the whole step. -/
def referenceStep (s : State) : State :=
  if s.run ≠ .running then s
  else
    let A := s.pc.toNat
    if s.cfg.memSize < A + 4 then
      { s with run := .faulted { kind := .memoryFault, cause := .fetchOutOfBounds, addr := BitVec.ofNat 32 A, word := none, target := some A } }
    else
      let w := memAt s A * 2 ^ 24 + memAt s (A + 1) * 2 ^ 16 + memAt s (A + 2) * 2 ^ 8 + memAt s (A + 3)
      let t := { s with ir := BitVec.ofNat 32 w, pc := BitVec.ofNat 32 ((A + 4) % 2 ^ 32) }
      if w = 0 then { t with pc := BitVec.ofNat 32 ((2 ^ 32 + t.pc.toNat - 4) % 2 ^ 32), run := .halted }
      else referenceExecute t A w

end Sys2Proof.Machine
end

