-- ==== Sys2Proof/Machine/Boundary.lean ====
section
/-! DEFINITION. The boundary of the core: what the host can do with a machine (43_loop_and_halt.md rules R98, R99;
70_reset_and_hazards.md rules R130 to R133). No step calls anything of this file. -/
namespace Sys2Proof.Machine

/-- `reset(MEM_SIZE, image)`: a fresh machine with the image at address 0 and zero elsewhere (rules R26, R130, R131). An image longer
than memory yields no machine (rule R132), nor do parameters that break rule R4. Any length up to `MEM_SIZE` will do, whole words
or not (rule R133). -/
def State.create (c : Config) (image : List Byte) : Host.Outcome State Fault Refusal :=
  if c.Wf then
    if c.memSize < image.length then .refused (.imageTooLong image.length c.memSize)
    else .next (State.fresh c (Memory.ofImage 0 image))
  else .refused .badConfiguration

/-- The twelve register names of rule R10. -/
inductive RegName where
  | gpr (r : Gpr)
  | pc | sp | ir | sr | mdr | mar
  deriving DecidableEq, Repr

/-- `read_register(r)` (rule R99). -/
def State.readRegister (s : State) : RegName → Word
  | .gpr r => s.readGpr r
  | .pc => s.pc
  | .sp => s.sp
  | .ir => s.ir
  | .sr => s.sr
  | .mdr => s.mdr
  | .mar => s.mar

/-- `read_memory(a)`, `0 <= a < MEM_SIZE` (rule R99); elsewhere there is no cell. -/
def State.readMemory (s : State) (a : Nat) : Except Fault Byte :=
  if a < s.cfg.memSize then .ok (Memory.read s.mem a) else .error (.noSuchAddress a)

/-- `read_status` (rule R99): Running, Halted, or Faulted with its record. -/
def State.readStatus (s : State) : RunState := s.run

/-- The run has ended: Halted or Faulted (rule R101). -/
def State.ended (s : State) : Bool := decide (s.run ≠ .running)

/-- `run_n(k)`: `step` applied `k` times (rule R98). -/
def runN : Nat → State → Host.Outcome State Fault Refusal
  | 0, s => .next s
  | k + 1, s =>
    match step s with
    | .next t => runN k t
    | .fault f => .fault f
    | .refused r => .refused r

/-- `run_to_halt` under fuel (rule R98): `step` until the machine is not Running; none where `fuel` steps do not end the run, which
says nothing about whether more would. -/
def runToHalt : Nat → State → Option State
  | 0, s => if s.ended then some s else none
  | k + 1, s =>
    if s.ended then some s
    else
      match step s with
      | .next t => runToHalt k t
      | .fault _ => none
      | .refused _ => none

end Sys2Proof.Machine
end

