-- ==== Sys2Proof/Safety.lean ====
section
/-! DEFINITION. The terms statements use: the ends of a run, what "unchanged" means, and the invariant of the states a run can reach
(spec 10_state.md rule R29, 60_exceptions.md rule R113). -/
namespace Sys2Proof.Machine

/-! ## The end of a run (43_loop_and_halt.md rule R101) -/

/-- The run has ended successfully. -/
abbrev State.SuccessfulEnd (s : State) : Prop := s.run = .halted

/-- The run has ended with a fault. -/
abbrev State.FailedEnd (s : State) : Prop := ∃ r, s.run = .faulted r

/-- A safe machine: no fault has been taken. -/
abbrev State.Safe (s : State) : Prop := ¬ s.FailedEnd

/-! ## What stays the same from one state to another -/

/-- Every general register keeps its value. -/
abbrev GprsKept (s t : State) : Prop := ∀ r : Gpr, t.readGpr r = s.readGpr r

/-- Every general register but `d` keeps its value. -/
abbrev GprsKeptBut (d : Gpr) (s t : State) : Prop := ∀ r : Gpr, r ≠ d → t.readGpr r = s.readGpr r

/-- SP, MDR and MAR keep their values (rules R20, R21). -/
abbrev UnusedKept (s t : State) : Prop := t.sp = s.sp ∧ t.mdr = s.mdr ∧ t.mar = s.mar

/-- Every byte of memory keeps its value. -/
abbrev MemoryKept (s t : State) : Prop := ∀ a : Nat, Memory.read t.mem a = Memory.read s.mem a

/-- Two states that agree on everything a rule reads: all but SR, SP, MDR and MAR (rules R18, R20, R21). -/
abbrev AgreeOnWhatIsRead (s t : State) : Prop :=
  t.cfg = s.cfg ∧ t.gprs = s.gprs ∧ t.pc = s.pc ∧ t.ir = s.ir ∧ t.mem = s.mem ∧ t.run = s.run

/-! ## What a step is about to do -/

/-- The machine is Running and its next step runs the instruction `i`: the four bytes at `PC` are in memory and decode to `i`. -/
abbrev State.AboutToRun (s : State) (i : Instr) : Prop :=
  s.run = .running ∧ ∃ w, s.memRead4 s.pc = some w ∧ decode s.cfg w = .ok i

/-! ## The invariant -/

/-- The fault record of a faulted state says what rule R113 says it says, the faulting instruction's word included: it is still in
memory at the record's address. -/
def FaultRecord.fits (r : FaultRecord) (s : State) : Prop :=
  match r.cause with
  | .fetchOutOfBounds =>
      r.kind = .memoryFault ∧ r.word = none ∧ r.target = some r.addr.toNat ∧ s.pc = r.addr ∧
        s.cfg.memSize < r.addr.toNat + 4
  | .unknownOpcode =>
      r.kind = .decodeFault ∧ r.word = some s.ir ∧ r.target = none ∧ s.pc = r.addr + 4#32 ∧
        s.memRead4 r.addr = some s.ir ∧ s.ir ≠ 0#32 ∧ opcodeField s.ir ∉ s.cfg.opcodes
  | .invalidRegister =>
      r.kind = .decodeFault ∧ r.word = some s.ir ∧ r.target = none ∧ s.pc = r.addr + 4#32 ∧
        s.memRead4 r.addr = some s.ir ∧ ∃ i, decode s.cfg s.ir = .ok i ∧ i.wf = false
  | .storeOutOfBounds =>
      r.kind = .memoryFault ∧ r.word = some s.ir ∧ s.pc = r.addr + 4#32 ∧ s.memRead4 r.addr = some s.ir ∧
        ∃ reg imm, decode s.cfg s.ir = .ok (.store reg imm) ∧ Specifier.valid reg = true ∧
          r.target = some imm.toNat ∧ s.cfg.memSize ≤ imm.toNat

/-- The invariant of rule R29, with the fault record's contents (rule R113) and memory's canonical form. Rule R29 (d) holds by the
type: only a faulted run state carries a record. -/
structure State.Inv (s : State) : Prop where
  /-- The configuration obeys rule R4. -/
  configWf : s.cfg.Wf
  /-- Rule R29 (a). -/
  statusTriState : s.sr = 0#32 ∨ s.sr = 1#32 ∨ s.sr = 2#32
  /-- Rule R29 (b). -/
  unusedZero : s.sp = 0#32 ∧ s.mdr = 0#32 ∧ s.mar = 0#32
  /-- Rule R29 (c). -/
  haltedAtZeroWord : s.run = .halted → s.ir = 0#32 ∧ s.memRead4 s.pc = some 0#32
  /-- Rule R113. -/
  faultRecorded : ∀ r, s.run = .faulted r → r.fits s
  /-- The canonical form of memory. -/
  memoryWf : Memory.wf s.mem = true
  /-- Rule R29 (e): no cell outside memory. -/
  memoryWithin : Memory.within s.cfg.memSize s.mem = true

end Sys2Proof.Machine
end

