-- ==== Sys2Proof/Certificates/Slice0/Obligations.lean ====
section
/-! DEFINITION. The statements for the provers, in the order of OBLIGATIONS.json. Nothing is proved here. Where a statement rests on a
choice of the model, its docstring names the log entry.

Rules whose content the spec decided where its source is silent (92_eei_decisions.md, followed in log 4), and the statements that
rest on them: specifier numbers and their fault (D2, D3): O6 to O11, O13, O15, O17, O25, O26; unsigned CMP and zero
extension (D10, D11): O7, O8, O11, O12, O13; unknown opcodes (D4): O3, O25, O26; bounds checks (D5, D13): O12, O13, O25, O26, O31, O40; what
a fault leaves (D6): O7 to O13, O25, O32; ignored bits and the zero word (D15, D16): O3, O4, O22; terminal states (D18): O21, O24; the
order of the checks (D19): O25, O26; reset values, image and SP, MDR, MAR (D8, D9, D24): O30, O32 to O34, O36 to O38. O19 is the whole
step and rests on all of D2 to D6, D10 to D19, D24. -/
open Sys2Proof Sys2Proof.Machine

/-! ## Encoding and decoding (30_encoding.md) -/

/-- O1. The decoder gives back every instruction the encoder packs, whatever its operands, under every choice of distinct opcode
numbers; laid out as bytes, big-endian, with anything after them, too. The only word two instructions could share is the zero word,
which is HALT (rule R59): it is shared only where a configuration numbers an opcode 0, so the premise excludes that one word. Under
the default numbers no premise is needed. -/
def Obligations.DecodeOfEncodeGivesTheInstruction : Prop :=
  (∀ (c : Config) (i : Instr) (rest : List Byte), c.Wf → (encode c i = 0#32 → i = .halt) →
    decode c (encode c i) = .ok i ∧ decodeBytes c (encodeBytes c i ++ rest) = .ok (i, rest)) ∧
  (∀ (n : Nat) (i : Instr) (rest : List Byte),
    decode (Config.withDefaultOpcodes n) (encode (Config.withDefaultOpcodes n) i) = .ok i ∧
      decodeBytes (Config.withDefaultOpcodes n) (encodeBytes (Config.withDefaultOpcodes n) i ++ rest) = .ok (i, rest))

/-- O2. Rule R65 at the level of fields: extraction inverts packing for every assigned opcode and every field value, with zero
`funct_hi` and `funct_lo`; and packing what was extracted gives the word back with its reserved and unused bits cleared. -/
def Obligations.FieldExtractionInvertsPacking : Prop :=
  (∀ (c : Config) (op : Opcode) (rd rs1 rs2 : Specifier), c.Wf → (op = c.opAdd ∨ op = c.opSub ∨ op = c.opCmp) →
    extractFields c (encodeR op rd rs1 rs2) = .rFormat op rd rs1 rs2 0#5 0#6) ∧
  (∀ (c : Config) (op : Opcode) (reg : Specifier) (imm : Imm), c.Wf →
    (op = opMv ∨ op = c.opJump ∨ op = c.opLoad ∨ op = c.opStore) →
    extractFields c (encodeI op reg imm) = .iFormat op reg imm) ∧
  (∀ (c : Config) (w : Word), c.Wf → opcodeField w ∈ c.opcodes →
    match extractFields c w with
    | .rFormat op rd rs1 rs2 _ _ => encodeR op rd rs1 rs2 = w &&& 0xFFFFF800#32
    | .iFormat op reg imm => encodeI op reg imm = w &&& 0xFFFFFFE0#32)

/-- O3. What the decoder answers for every word (rules R55, R56, R59, R60): the zero word is HALT and nothing else is; a non-zero
word with an assigned opcode is that instruction, its operands at the bits of rules R52 and R54; every other word is refused as an
unknown opcode. -/
def Obligations.EveryWordDecodesAsTheMapSays : Prop :=
  ∀ (c : Config) (w : Word), c.Wf →
    (decode c w = .ok .halt ↔ w = 0#32) ∧
    (w ≠ 0#32 →
      (BitVec.extractLsb 31 26 w = opMv →
        decode c w = .ok (.mv (BitVec.extractLsb 25 21 w) (BitVec.extractLsb 20 5 w))) ∧
      (BitVec.extractLsb 31 26 w = c.opAdd →
        decode c w = .ok (.add (BitVec.extractLsb 25 21 w) (BitVec.extractLsb 20 16 w) (BitVec.extractLsb 15 11 w))) ∧
      (BitVec.extractLsb 31 26 w = c.opSub →
        decode c w = .ok (.sub (BitVec.extractLsb 25 21 w) (BitVec.extractLsb 20 16 w) (BitVec.extractLsb 15 11 w))) ∧
      (BitVec.extractLsb 31 26 w = c.opCmp →
        decode c w = .ok (.cmp (BitVec.extractLsb 20 16 w) (BitVec.extractLsb 15 11 w))) ∧
      (BitVec.extractLsb 31 26 w = c.opJump → decode c w = .ok (.jump (BitVec.extractLsb 20 5 w))) ∧
      (BitVec.extractLsb 31 26 w = c.opLoad →
        decode c w = .ok (.load (BitVec.extractLsb 25 21 w) (BitVec.extractLsb 20 5 w))) ∧
      (BitVec.extractLsb 31 26 w = c.opStore →
        decode c w = .ok (.store (BitVec.extractLsb 25 21 w) (BitVec.extractLsb 20 5 w))) ∧
      (BitVec.extractLsb 31 26 w ∉ c.opcodes →
        decode c w = .error (.unknownOpcode (BitVec.extractLsb 31 26 w))))

/-- O4. Rule R61: bits 10:0 of the R format, bits 4:0 of the I format, CMP's `rd` and JUMP's `reg` are never consulted, so non-zero
words that differ in them only decode alike (and `exec` sees the decoded instruction, not the word); the encoder writes them 0. -/
def Obligations.IgnoredBitsDoNotChangeTheInstruction : Prop :=
  (∀ (c : Config) (v w : Word), c.Wf → v ≠ 0#32 → w ≠ 0#32 → opcodeField v = opcodeField w →
    ((opcodeField w = c.opAdd ∨ opcodeField w = c.opSub) → v >>> 11 = w >>> 11 → decode c v = decode c w) ∧
    (opcodeField w = c.opCmp → BitVec.extractLsb 20 11 v = BitVec.extractLsb 20 11 w → decode c v = decode c w) ∧
    ((opcodeField w = opMv ∨ opcodeField w = c.opLoad ∨ opcodeField w = c.opStore) → v >>> 5 = w >>> 5 →
      decode c v = decode c w) ∧
    (opcodeField w = c.opJump → BitVec.extractLsb 20 5 v = BitVec.extractLsb 20 5 w → decode c v = decode c w)) ∧
  (∀ (c : Config) (a b d : Specifier) (imm : Imm),
    BitVec.extractLsb 10 0 (encode c (.add d a b)) = 0#11 ∧ BitVec.extractLsb 10 0 (encode c (.sub d a b)) = 0#11 ∧
    BitVec.extractLsb 10 0 (encode c (.cmp a b)) = 0#11 ∧ BitVec.extractLsb 25 21 (encode c (.cmp a b)) = 0#5 ∧
    BitVec.extractLsb 4 0 (encode c (.mv d imm)) = 0#5 ∧ BitVec.extractLsb 4 0 (encode c (.load d imm)) = 0#5 ∧
    BitVec.extractLsb 4 0 (encode c (.store d imm)) = 0#5 ∧ BitVec.extractLsb 4 0 (encode c (.jump imm)) = 0#5 ∧
    BitVec.extractLsb 25 21 (encode c (.jump imm)) = 0#5)

/-- O5. Words written out from the spec (95_test_vectors.md V-ENC-1 to V-ENC-11; the source's own word is the first) decode to the
instructions they stand for. A sanity statement. -/
def Obligations.WordsOfTheSpecDecode : Prop :=
  decodeTableWord 32 0x302000A0 = some (.mv 1#5 5#16) ∧
  decodeTableWord 32 0x34011000 = some (.add 0#5 1#5 2#5) ∧
  decodeTableWord 32 0x38642800 = some (.sub 3#5 4#5 5#5) ∧
  decodeTableWord 32 0x3C011000 = some (.cmp 1#5 2#5) ∧
  decodeTableWord 32 0x40000200 = some (.jump 16#16) ∧
  decodeTableWord 32 0x44824680 = some (.load 4#5 0x1234#16) ∧
  decodeTableWord 32 0x48A01FE0 = some (.store 5#5 255#16) ∧
  decodeTableWord 32 0 = some .halt ∧
  decodeTableWord 32 1 = none ∧
  encodeBytes (Config.withDefaultOpcodes 256) (.mv 1#5 5#16) = [0x30#8, 0x20#8, 0x00#8, 0xA0#8]

/-- O6. Rules R12 and R13: specifier `i` names `Wi` for `i` = 0 to 5, and 6 to 31 name nothing. -/
def Obligations.SpecifiersNameTheirRegisters : Prop :=
  gpr 0#5 = some .w0 ∧ gpr 1#5 = some .w1 ∧ gpr 2#5 = some .w2 ∧ gpr 3#5 = some .w3 ∧ gpr 4#5 = some .w4 ∧
  gpr 5#5 = some .w5 ∧ (∀ f : Specifier, gpr f = none ↔ 6 ≤ f.toNat)

/-! ## The instructions, one by one: the result with its frame, and the exception.

`exec i s` is the execute phase: `s` is the state the fetch left, `IR` the word and `PC` the instruction's address plus 4. -/

/-- O7. MV (rule R70): the whole register becomes the zero-extended immediate and nothing else changes; a specifier of 6 to 31
takes `DecodeFault(invalid_register)` and writes nothing. -/
def Obligations.MvWritesTheImmediate : Prop :=
  ∀ (s : State) (reg : Specifier) (imm : Imm),
    opMv = 12#6 ∧
    (∀ c : Config, encode c (.mv reg imm) = encodeI opMv reg imm ∧
      (c.Wf → ∀ w : Word, w ≠ 0#32 → BitVec.extractLsb 31 26 w = opMv →
        decode c w = .ok (.mv (BitVec.extractLsb 25 21 w) (BitVec.extractLsb 20 5 w)))) ∧
    (∀ d, gpr reg = some d →
      ∃ t, exec (.mv reg imm) s = .next t ∧ (t.readGpr d).toNat = imm.toNat ∧ GprsKeptBut d s t ∧
        t.pc = s.pc ∧ t.ir = s.ir ∧ t.sr = s.sr ∧ UnusedKept s t ∧ MemoryKept s t ∧ t.run = s.run ∧ t.cfg = s.cfg) ∧
    (5 < reg.toNat →
      exec (.mv reg imm) s = .next { s with run := .faulted ⟨.decodeFault, .invalidRegister, s.pc - 4#32, some s.ir, none⟩ })

/-- O8. LOAD (rule R85): the register becomes the literal immediate; memory is not read, so the result is the same whatever memory
and `MEM_SIZE` are, and no `MemoryFault` is possible. -/
def Obligations.LoadWritesTheLiteral : Prop :=
  ∀ (s : State) (reg : Specifier) (imm : Imm),
    (∀ c : Config, encode c (.load reg imm) = encodeI c.opLoad reg imm ∧
      (c.Wf → ∀ w : Word, w ≠ 0#32 → BitVec.extractLsb 31 26 w = c.opLoad →
        decode c w = .ok (.load (BitVec.extractLsb 25 21 w) (BitVec.extractLsb 20 5 w)))) ∧
    (∀ d, gpr reg = some d →
      ∃ t, exec (.load reg imm) s = .next t ∧ (t.readGpr d).toNat = imm.toNat ∧ GprsKeptBut d s t ∧
        t.pc = s.pc ∧ t.ir = s.ir ∧ t.sr = s.sr ∧ UnusedKept s t ∧ MemoryKept s t ∧ t.run = s.run ∧ t.cfg = s.cfg) ∧
    (5 < reg.toNat →
      exec (.load reg imm) s = .next { s with run := .faulted ⟨.decodeFault, .invalidRegister, s.pc - 4#32, some s.ir, none⟩ })

/-- O9. ADD (rule R71): the sum modulo 2^32 of the sources' old values, also where the destination is a source; no flag; any
invalid specifier takes the fault and writes nothing. -/
def Obligations.AddWritesTheWrappedSum : Prop :=
  ∀ (s : State) (rd rs1 rs2 : Specifier),
    (∀ c : Config, encode c (.add rd rs1 rs2) = encodeR c.opAdd rd rs1 rs2 ∧
      (c.Wf → ∀ w : Word, w ≠ 0#32 → BitVec.extractLsb 31 26 w = c.opAdd →
        decode c w = .ok (.add (BitVec.extractLsb 25 21 w) (BitVec.extractLsb 20 16 w) (BitVec.extractLsb 15 11 w)))) ∧
    (∀ d a b, gpr rd = some d → gpr rs1 = some a → gpr rs2 = some b →
      ∃ t, exec (.add rd rs1 rs2) s = .next t ∧
        (t.readGpr d).toNat = ((s.readGpr a).toNat + (s.readGpr b).toNat) % 4294967296 ∧ GprsKeptBut d s t ∧
        t.pc = s.pc ∧ t.ir = s.ir ∧ t.sr = s.sr ∧ UnusedKept s t ∧ MemoryKept s t ∧ t.run = s.run ∧ t.cfg = s.cfg) ∧
    ((5 < rd.toNat ∨ 5 < rs1.toNat ∨ 5 < rs2.toNat) →
      exec (.add rd rs1 rs2) s = .next { s with run := .faulted ⟨.decodeFault, .invalidRegister, s.pc - 4#32, some s.ir, none⟩ })

/-- O10. SUB (rule R72): first source minus second, modulo 2^32, in 0 to 2^32 - 1; no flag; the fault as for ADD. -/
def Obligations.SubWritesTheWrappedDifference : Prop :=
  ∀ (s : State) (rd rs1 rs2 : Specifier),
    (∀ c : Config, encode c (.sub rd rs1 rs2) = encodeR c.opSub rd rs1 rs2 ∧
      (c.Wf → ∀ w : Word, w ≠ 0#32 → BitVec.extractLsb 31 26 w = c.opSub →
        decode c w = .ok (.sub (BitVec.extractLsb 25 21 w) (BitVec.extractLsb 20 16 w) (BitVec.extractLsb 15 11 w)))) ∧
    (∀ d a b, gpr rd = some d → gpr rs1 = some a → gpr rs2 = some b →
      ∃ t, exec (.sub rd rs1 rs2) s = .next t ∧
        ((t.readGpr d).toNat : Int) = (((s.readGpr a).toNat : Int) - (s.readGpr b).toNat) % 4294967296 ∧
        GprsKeptBut d s t ∧
        t.pc = s.pc ∧ t.ir = s.ir ∧ t.sr = s.sr ∧ UnusedKept s t ∧ MemoryKept s t ∧ t.run = s.run ∧ t.cfg = s.cfg) ∧
    ((5 < rd.toNat ∨ 5 < rs1.toNat ∨ 5 < rs2.toNat) →
      exec (.sub rd rs1 rs2) s = .next { s with run := .faulted ⟨.decodeFault, .invalidRegister, s.pc - 4#32, some s.ir, none⟩ })

/-- O11. CMP (rule R73): SR becomes 0 exactly when the sources are equal, 1 exactly when the first is less, 2 exactly when it is
greater, unsigned; no general register changes; an invalid source specifier takes the fault and SR is not written. -/
def Obligations.CmpWritesTheTriState : Prop :=
  ∀ (s : State) (rs1 rs2 : Specifier),
    (∀ c : Config, encode c (.cmp rs1 rs2) = encodeR c.opCmp 0#5 rs1 rs2 ∧
      (c.Wf → ∀ w : Word, w ≠ 0#32 → BitVec.extractLsb 31 26 w = c.opCmp →
        decode c w = .ok (.cmp (BitVec.extractLsb 20 16 w) (BitVec.extractLsb 15 11 w)))) ∧
    (∀ a b, gpr rs1 = some a → gpr rs2 = some b →
      ∃ t, exec (.cmp rs1 rs2) s = .next t ∧
        (t.sr = 0#32 ↔ (s.readGpr a).toNat = (s.readGpr b).toNat) ∧
        (t.sr = 1#32 ↔ (s.readGpr a).toNat < (s.readGpr b).toNat) ∧
        (t.sr = 2#32 ↔ (s.readGpr b).toNat < (s.readGpr a).toNat) ∧ GprsKept s t ∧
        t.pc = s.pc ∧ t.ir = s.ir ∧ UnusedKept s t ∧ MemoryKept s t ∧ t.run = s.run ∧ t.cfg = s.cfg) ∧
    ((5 < rs1.toNat ∨ 5 < rs2.toNat) →
      exec (.cmp rs1 rs2) s = .next { s with run := .faulted ⟨.decodeFault, .invalidRegister, s.pc - 4#32, some s.ir, none⟩ })

/-- O12. JUMP (rule R80): PC becomes the zero-extended immediate, for every 16-bit target, aligned or not, in memory or not; nothing
else changes and JUMP raises nothing; where the target's four bytes are not all in memory, it is the next step's fetch that faults,
with the target as the fault's instruction address. -/
def Obligations.JumpSetsPcAndNothingElse : Prop :=
  ∀ (s : State) (imm : Imm),
    (∀ c : Config, encode c (.jump imm) = encodeI c.opJump 0#5 imm ∧
      (c.Wf → ∀ w : Word, w ≠ 0#32 → BitVec.extractLsb 31 26 w = c.opJump →
        decode c w = .ok (.jump (BitVec.extractLsb 20 5 w)))) ∧
    ∃ t, exec (.jump imm) s = .next t ∧ t.pc.toNat = imm.toNat ∧ GprsKept s t ∧
      t.ir = s.ir ∧ t.sr = s.sr ∧ UnusedKept s t ∧ MemoryKept s t ∧ t.run = s.run ∧ t.cfg = s.cfg ∧
      (s.run = .running → s.cfg.memSize < imm.toNat + 4 →
        step t = .next { t with run := .faulted ⟨.memoryFault, .fetchOutOfBounds, t.pc, none, some imm.toNat⟩ })

/-- O13. STORE (rule R86): the cell at the immediate address gets the register's value modulo 256, every other cell and every
register keeps its value; an invalid specifier takes `DecodeFault(invalid_register)`, whatever the address; a valid one with an
address at or above `MEM_SIZE` takes `MemoryFault(store_out_of_bounds)`. -/
def Obligations.StoreWritesTheLowByte : Prop :=
  ∀ (s : State) (reg : Specifier) (imm : Imm),
    (∀ c : Config, encode c (.store reg imm) = encodeI c.opStore reg imm ∧
      (c.Wf → ∀ w : Word, w ≠ 0#32 → BitVec.extractLsb 31 26 w = c.opStore →
        decode c w = .ok (.store (BitVec.extractLsb 25 21 w) (BitVec.extractLsb 20 5 w)))) ∧
    (zext32 imm).toNat = imm.toNat ∧
    (∀ r a, gpr reg = some r → a = (zext32 imm).toNat → a < s.cfg.memSize →
      ∃ t, exec (.store reg imm) s = .next t ∧
        (Memory.read t.mem a).toNat = (s.readGpr r).toNat % 256 ∧
        (∀ x, x ≠ a → Memory.read t.mem x = Memory.read s.mem x) ∧ GprsKept s t ∧
        t.pc = s.pc ∧ t.ir = s.ir ∧ t.sr = s.sr ∧ UnusedKept s t ∧ t.run = s.run ∧ t.cfg = s.cfg) ∧
    (5 < reg.toNat →
      exec (.store reg imm) s = .next { s with run := .faulted ⟨.decodeFault, .invalidRegister, s.pc - 4#32, some s.ir, none⟩ }) ∧
    (reg.toNat ≤ 5 → s.cfg.memSize ≤ imm.toNat →
      exec (.store reg imm) s = .next { s with run := .faulted ⟨.memoryFault, .storeOutOfBounds, s.pc - 4#32, some s.ir, some imm.toNat⟩ })

/-- O14. HALT (rule R93): PC goes back by 4 modulo 2^32, the machine is Halted, and nothing else changes. -/
def Obligations.HaltRollsPcBackAndHalts : Prop :=
  ∀ s : State,
    (∀ c : Config, encode c .halt = 0#32 ∧ decode c 0#32 = .ok .halt) ∧
    ∃ t, exec .halt s = .next t ∧ (t.pc.toNat + 4) % 4294967296 = s.pc.toNat ∧ t.run = .halted ∧ GprsKept s t ∧
      t.ir = s.ir ∧ t.sr = s.sr ∧ UnusedKept s t ∧ MemoryKept s t ∧ t.cfg = s.cfg

/-- O15. The law of 95_test_vectors.md section 4: SUB undoes ADD, whatever wrapped, as long as the destination is not the second
source; if it is, the SUB gives 0. -/
def Obligations.SubUndoesAdd : Prop :=
  ∀ (s : State) (rd rs1 rs2 : Specifier) (d a b : Gpr), gpr rd = some d → gpr rs1 = some a → gpr rs2 = some b →
    ∃ t u, exec (.add rd rs1 rs2) s = .next t ∧ exec (.sub rd rd rs2) t = .next u ∧
      (d ≠ b → u.readGpr d = s.readGpr a) ∧ (d = b → u.readGpr d = 0#32)

/-! ## Memory access (20_memory.md) -/

/-- O16. Rule R32: at any address whose four bytes are in memory, aligned or not, the word read has the byte at the lowest address
in its most significant bits (as a number, rule R33's sum); the encoder lays a word out the same way. -/
def Obligations.FetchReadsFourBytesBigEndian : Prop :=
  (∀ (s : State) (addr : Word), addr.toNat + 4 ≤ s.cfg.memSize →
    ∃ w, s.memRead4 addr = some w ∧
      BitVec.extractLsb 31 24 w = Memory.read s.mem addr.toNat ∧
      BitVec.extractLsb 23 16 w = Memory.read s.mem (addr.toNat + 1) ∧
      BitVec.extractLsb 15 8 w = Memory.read s.mem (addr.toNat + 2) ∧
      BitVec.extractLsb 7 0 w = Memory.read s.mem (addr.toNat + 3) ∧
      w.toNat = (Memory.read s.mem addr.toNat).toNat * 16777216 + (Memory.read s.mem (addr.toNat + 1)).toNat * 65536 +
        (Memory.read s.mem (addr.toNat + 2)).toNat * 256 + (Memory.read s.mem (addr.toNat + 3)).toNat) ∧
  (∀ (c : Config) (i : Instr), encodeBytes c i =
    [BitVec.extractLsb 31 24 (encode c i), BitVec.extractLsb 23 16 (encode c i),
      BitVec.extractLsb 15 8 (encode c i), BitVec.extractLsb 7 0 (encode c i)])

/-- O17. Rule R43: the next fetch sees a STORE with no other action. After a step that runs a STORE to an existing cell, the byte
`k` of the word at any address in memory is the stored byte where the word covers the cell there, and the old byte otherwise. -/
def Obligations.TheNextFetchSeesAStore : Prop :=
  ∀ (s : State) (reg : Specifier) (imm : Imm) (r : Gpr) (addr : Word) (v : Word),
    s.AboutToRun (.store reg imm) → gpr reg = some r → imm.toNat < s.cfg.memSize → s.memRead4 addr = some v →
    ∃ t w, step s = .next t ∧ t.memRead4 addr = some w ∧
      ∀ k, k < 4 → byteOfWord w k =
        if addr.toNat + k = imm.toNat then BitVec.ofNat 8 (s.readGpr r).toNat else byteOfWord v k

/-! ## The step (43_loop_and_halt.md) -/

/-- O18. A step runs the decoded instruction: where the four bytes at PC are in memory and decode to `i`, the step of a Running
machine is `exec i` on the state the fetch leaves (IR the word, PC advanced by 4, nothing else changed). -/
def Obligations.StepRunsTheDecodedInstruction : Prop :=
  ∀ (s : State) (w : Word) (i : Instr), s.run = .running → s.memRead4 s.pc = some w → decode s.cfg w = .ok i →
    step s = exec i { s with ir := w, pc := s.pc + 4#32 }

/-- O19. Rule R96, the whole step: for every state of every well-formed configuration, the step (fetch, decoder, dispatch, meanings)
gives exactly the state of the rule's pseudocode, rendered separately in natural numbers from the raw word. -/
def Obligations.StepIsTheSpecsWholeStepFunction : Prop :=
  ∀ s : State, s.cfg.Wf → step s = .next (referenceStep s)

/-- O20. No step stops the machine from outside: from every state, every instruction and every step answer a next state (rules R69
and R100: decoding is total and the step is a function). -/
def Obligations.EveryStepAnswersANextState : Prop :=
  (∀ (i : Instr) (s : State), ∃ t, exec i s = .next t) ∧ (∀ s : State, ∃ t, step s = .next t) ∧
    (∀ (k : Nat) (s : State), ∃ t, runN k s = .next t)

/-- O21. Rule R97: Halted and Faulted are terminal; any number of steps taken in either changes nothing at all. -/
def Obligations.TerminalStatesNeverChange : Prop :=
  ∀ (s : State) (k : Nat), s.run ≠ .running → step s = .next s ∧ runN k s = .next s

/-- O22. Rules R92 and R93: a Running machine halts in a step exactly when the word at PC is in memory and zero in all 32 bits; it
then has PC at the zero word's address, IR zero, and everything else as it was. -/
def Obligations.HaltExactlyAtTheZeroWord : Prop :=
  ∀ s : State, s.run = .running →
    (s.memRead4 s.pc = some 0#32 → step s = .next { s with ir := 0#32, run := .halted }) ∧
    (∀ t, step s = .next t → t.run = .halted → s.memRead4 s.pc = some 0#32)

/-- O23. The next PC of every instruction (the table of 41_jump.md rule R82). -/
def Obligations.NextPcOfEveryStep : Prop :=
  ∀ s : State, s.run = .running →
    ∃ t, step s = .next t ∧
      (s.memRead4 s.pc = none → t.pc = s.pc) ∧
      (∀ w, s.memRead4 s.pc = some w →
        (w = 0#32 → t.pc = s.pc) ∧
        (∀ imm, decode s.cfg w = .ok (.jump imm) → t.pc.toNat = imm.toNat) ∧
        (w ≠ 0#32 → (∀ imm, decode s.cfg w ≠ .ok (.jump imm)) → t.pc.toNat = (s.pc.toNat + 4) % 4294967296))

/-- O24. Runs (rules R97 and R98): once a run has ended, asking for more steps is harmless; and `run_to_halt` under fuel gives a state
exactly when that many steps end the run, the state `run_n` gives. The fuel bound, and the answer none where it does not suffice, are
the model's choice (log 12): the spec's `run_to_halt` has no bound. -/
def Obligations.MoreStepsAfterTheEndAreHarmless : Prop :=
  (∀ (k j : Nat) (s t : State), runN k s = .next t → t.run ≠ .running → runN (k + j) s = .next t) ∧
  (∀ (k : Nat) (s t : State), runToHalt k s = some t ↔ (runN k s = .next t ∧ t.run ≠ .running))

/-! ## Faults (60_exceptions.md) -/

/-- O25. The state a fault leaves, by cause (the table of rule R113; `word` is the word at PC). -/
def Obligations.FaultsLeaveTheStateOfTheTable : Prop :=
  ∀ s : State, s.run = .running →
    (s.cfg.memSize < s.pc.toNat + 4 →
      step s = .next { s with run := .faulted ⟨.memoryFault, .fetchOutOfBounds, s.pc, none, some s.pc.toNat⟩ }) ∧
    (∀ w, s.memRead4 s.pc = some w →
      (w ≠ 0#32 → opcodeField w ∉ s.cfg.opcodes →
        step s = .next { s with pc := s.pc + 4#32, ir := w, run := .faulted ⟨.decodeFault, .unknownOpcode, s.pc, some w, none⟩ }) ∧
      (∀ i f, decode s.cfg w = .ok i → f ∈ i.usedSpecifiers → 5 < f.toNat →
        step s = .next { s with pc := s.pc + 4#32, ir := w, run := .faulted ⟨.decodeFault, .invalidRegister, s.pc, some w, none⟩ }) ∧
      (∀ reg imm, decode s.cfg w = .ok (.store reg imm) → reg.toNat ≤ 5 → s.cfg.memSize ≤ imm.toNat →
        step s = .next { s with pc := s.pc + 4#32, ir := w, run := .faulted ⟨.memoryFault, .storeOutOfBounds, s.pc, some w, some imm.toNat⟩ }))

/-- O26. When a step faults, and with which cause (rules R118 and R119): a Running machine's step ends Faulted exactly in the four
cases below, which exclude each other in the order of the checks. -/
def Obligations.StepFaultsExactlyInTheseCases : Prop :=
  ∀ s t : State, s.run = .running → step s = .next t →
    ((∃ r, t.run = .faulted r ∧ r.cause = .fetchOutOfBounds) ↔ s.memRead4 s.pc = none) ∧
    ((∃ r, t.run = .faulted r ∧ r.cause = .unknownOpcode) ↔
      ∃ w e, s.memRead4 s.pc = some w ∧ decode s.cfg w = .error e) ∧
    ((∃ r, t.run = .faulted r ∧ r.cause = .invalidRegister) ↔ ∃ i, s.AboutToRun i ∧ i.wf = false) ∧
    ((∃ r, t.run = .faulted r ∧ r.cause = .storeOutOfBounds) ↔
      ∃ reg imm, s.AboutToRun (.store reg imm) ∧ reg.toNat ≤ 5 ∧ s.cfg.memSize ≤ imm.toNat)

/-! ## Whole-machine rules: who writes what -/

/-- O27. SR is written by CMP only (10_state.md rule R18): if a step changes SR, it ran a CMP with two existing registers; and SR
keeps to 0, 1 and 2. -/
def Obligations.StatusRegisterIsWrittenByCmpOnly : Prop :=
  ∀ s t : State, step s = .next t →
    (t.sr ≠ s.sr → ∃ rs1 rs2, s.AboutToRun (.cmp rs1 rs2) ∧ rs1.toNat ≤ 5 ∧ rs2.toNat ≤ 5) ∧
    ((s.sr = 0#32 ∨ s.sr = 1#32 ∨ s.sr = 2#32) → (t.sr = 0#32 ∨ t.sr = 1#32 ∨ t.sr = 2#32))

/-- O28. Memory is written by STORE only, one cell at the STORE's own 16-bit address (rules R25, R31): a cell that a step changes is
the address of the STORE it ran. So no cell at 65536 or above ever changes. -/
def Obligations.MemoryIsWrittenByStoreOnly : Prop :=
  ∀ s t : State, step s = .next t →
    (∀ a, Memory.read t.mem a ≠ Memory.read s.mem a →
      ∃ reg imm, s.AboutToRun (.store reg imm) ∧ reg.toNat ≤ 5 ∧ a = imm.toNat ∧ a < s.cfg.memSize) ∧
    (∀ a, 65536 ≤ a → Memory.read t.mem a = Memory.read s.mem a)

/-- O29. A general register changes only as the destination of the instruction that ran (rule R14), so one step changes at most one;
and the configuration never changes (rule R45: `MEM_SIZE` is fixed at creation; that `cfg` carries it is log 1). -/
def Obligations.GeneralRegistersChangeOnlyAsDestinations : Prop :=
  ∀ s t : State, step s = .next t →
    (∀ r, t.readGpr r ≠ s.readGpr r → ∃ i, s.AboutToRun i ∧ i.destination = some r) ∧ t.cfg = s.cfg

/-- O30. Nothing reads SR, SP, MDR or MAR, and nothing writes SP, MDR or MAR (rules R18, R20, R21): two machines that agree on
everything else agree on everything else after any number of steps, and SP, MDR and MAR keep their values. -/
def Obligations.StatusAndUnusedRegistersAreNeverRead : Prop :=
  ∀ (k : Nat) (s s' : State), AgreeOnWhatIsRead s s' →
    ∃ t t', runN k s = .next t ∧ runN k s' = .next t' ∧ AgreeOnWhatIsRead t t' ∧ UnusedKept s t ∧ UnusedKept s' t'

/-- O31. Rule R45: with `MEM_SIZE >= 65536` no STORE can raise a MemoryFault, and the fetch that follows a JUMP raises one exactly
when `MEM_SIZE < imm + 4`, which with `MEM_SIZE >= 65539` is never. -/
def Obligations.LargeMemoryNeverFaultsAStore : Prop :=
  ∀ (s : State), s.run = .running →
    (65536 ≤ s.cfg.memSize → ∀ reg imm t r, exec (.store reg imm) s = .next t → t.run = .faulted r →
      r.kind = .decodeFault) ∧
    (∀ imm, ∃ t u, exec (.jump imm) s = .next t ∧ step t = .next u ∧
      ((∃ r, u.run = .faulted r ∧ r.cause = .fetchOutOfBounds) ↔ s.cfg.memSize < imm.toNat + 4)) ∧
    (65539 ≤ s.cfg.memSize → ∀ imm : Imm, ¬ s.cfg.memSize < imm.toNat + 4)

/-! ## The invariant (10_state.md rule R29) -/

/-- O32. Every step keeps the invariant: SR is 0, 1 or 2; SP, MDR and MAR are 0; a Halted machine has IR zero and stands at four zero
bytes; a Faulted machine's record is the one of rule R113 for the word still in memory at its address; memory keeps its canonical
form (the model's own, log 5) and has no cell outside `MEM_SIZE`. -/
def Obligations.EveryStepKeepsTheStateLawful : Prop :=
  ∀ s t : State, s.Inv → step s = .next t → t.Inv

/-- O33. The invariant holds at reset. The configuration of `State.reset` is the model's choice (log 2, log 3), and so is the canonical
form of memory inside the invariant (log 5). -/
def Obligations.ResetStateIsLawful : Prop := State.reset.Inv

/-- O34. The invariant holds in every state any machine reaches: whatever image it was created with and however many steps it
takes. It follows from O32 and the state
that creation leaves. The canonical form of memory inside the invariant is the model's own (log 5), and that `State.create` checks rule
R4 is log 13. -/
def Obligations.EveryReachableStateIsLawful : Prop :=
  ∀ (c : Config) (image : List Byte) (s t : State) (k : Nat),
    State.create c image = .next s → runN k s = .next t → t.Inv

/-- O35. Memory keeps its canonical form in every step, in states no run reaches too. The form is the model's own (log 5). -/
def Obligations.EveryStepKeepsMemoryCanonical : Prop :=
  ∀ s t : State, Memory.wf s.mem = true → step s = .next t → Memory.wf t.mem = true

/-! ## Reset (70_reset_and_hazards.md) -/

/-- O36. Creating a machine (rules R26, R131, R133): for parameters that obey rule R4 and an image of at most `MEM_SIZE` bytes, whole
words or not, every register is 0, the machine is Running, and memory holds the image from address 0 and 0x00 elsewhere. -/
def Obligations.CreationLoadsTheImage : Prop :=
  ∀ (c : Config) (image : List Byte), c.Wf → image.length ≤ c.memSize →
    ∃ s, State.create c image = .next s ∧ (∀ r : RegName, s.readRegister r = 0#32) ∧ s.readStatus = .running ∧
      (∀ a, a < image.length → s.readMemory a = .ok (image.getD a 0#8)) ∧
      (∀ a, image.length ≤ a → a < c.memSize → s.readMemory a = .ok 0#8)

/-- O37. An image longer than memory is refused: no machine (rule R132). -/
def Obligations.OversizeImageIsRefused : Prop :=
  ∀ (c : Config) (image : List Byte), c.Wf → c.memSize < image.length →
    State.create c image = .refused (.imageTooLong image.length c.memSize)

/-- O38. `State.reset` is the machine created with the empty image: every register 0, Running, every byte 0 (rule R26). Which
configuration it has is the model's choice (log 2, log 3) and nothing here rests on it. -/
def Obligations.ResetIsTheEmptyImage : Prop :=
  (∃ c, State.create c [] = .next State.reset) ∧ (∀ r : RegName, State.reset.readRegister r = 0#32) ∧
    State.reset.run = .running ∧ ∀ a, Memory.read State.reset.mem a = 0#8

/-- O39. The word placed by `withFetchWord` is the one the next step runs, from every state of a well-formed configuration (the
placing is the model's own, log 10); it is at `PC` wherever `PC` can be fetched from, and other bytes keep their value. -/
def Obligations.ThePlacedWordRunsNext : Prop :=
  ∀ (s : State) (w : Word), s.cfg.Wf →
    let t := s.withFetchWord 32 w.toNat
    t.run = .running ∧ t.memRead4 t.pc = some w ∧ (s.pc.toNat + 4 ≤ s.cfg.memSize → t.pc = s.pc) ∧
      (∀ a, (a < t.pc.toNat ∨ t.pc.toNat + 4 ≤ a) → Memory.read t.mem a = Memory.read s.mem a) ∧
      t.gprs = s.gprs ∧ t.sr = s.sr ∧ t.cfg = s.cfg ∧
      (∀ i, decode s.cfg w = .ok i → step t = exec i { t with ir := w, pc := t.pc + 4#32 })

/-- O40. The two access primitives check their bounds in natural numbers before any byte moves (20_memory.md section 3, the spec's own
decision D5): a read is refused exactly when one of its four bytes is not in memory, nothing truncated or wrapped; a write is refused
exactly when its cell does not exist, and otherwise changes that cell and no other. -/
def Obligations.AccessesCheckTheirBoundsFirst : Prop :=
  ∀ (s : State) (addr : Word) (v : Byte),
    (s.memRead4 addr = none ↔ s.cfg.memSize < addr.toNat + 4) ∧
    (s.memWrite1 addr v = none ↔ s.cfg.memSize ≤ addr.toNat) ∧
    (∀ t, s.memWrite1 addr v = some t →
      (∀ a, Memory.read t.mem a = if a = addr.toNat then v else Memory.read s.mem a) ∧ { t with mem := s.mem } = s)
end

