-- ==== Sys2Proof/Laws/Encoding.lean ====
section
/-! SUPPORT. Laws of fields, byte order and packing: what each field of a packed word reads, and that bytes and words agree. -/
namespace Sys2Proof

/-! ## Fields of a packed word (rules R52, R54, R64) -/

@[simp] theorem opcodeField_encodeR (op : Opcode) (rd a b : Specifier) : opcodeField (encodeR op rd a b) = op := by
  ext i h; simp [opcodeField, encodeR]; interval_cases i <;> simp

@[simp] theorem firstSpecifier_encodeR (op : Opcode) (rd a b : Specifier) : firstSpecifier (encodeR op rd a b) = rd := by
  ext i h; simp [firstSpecifier, encodeR]; interval_cases i <;> simp

@[simp] theorem rs1Field_encodeR (op : Opcode) (rd a b : Specifier) : rs1Field (encodeR op rd a b) = a := by
  ext i h; simp [rs1Field, encodeR]; interval_cases i <;> simp

@[simp] theorem rs2Field_encodeR (op : Opcode) (rd a b : Specifier) : rs2Field (encodeR op rd a b) = b := by
  ext i h; simp [rs2Field, encodeR]; interval_cases i <;> simp

@[simp] theorem functHiField_encodeR (op : Opcode) (rd a b : Specifier) : functHiField (encodeR op rd a b) = 0#5 := by
  ext i h; simp [functHiField, encodeR]; interval_cases i <;> simp

@[simp] theorem functLoField_encodeR (op : Opcode) (rd a b : Specifier) : functLoField (encodeR op rd a b) = 0#6 := by
  ext i h; simp [functLoField, encodeR]; interval_cases i <;> simp

@[simp] theorem opcodeField_encodeI (op : Opcode) (r : Specifier) (imm : Imm) : opcodeField (encodeI op r imm) = op := by
  ext i h; simp [opcodeField, encodeI]; interval_cases i <;> simp

@[simp] theorem firstSpecifier_encodeI (op : Opcode) (r : Specifier) (imm : Imm) : firstSpecifier (encodeI op r imm) = r := by
  ext i h; simp [firstSpecifier, encodeI]; interval_cases i <;> simp

@[simp] theorem immField_encodeI (op : Opcode) (r : Specifier) (imm : Imm) : immField (encodeI op r imm) = imm := by
  ext i h; simp [immField, encodeI]; interval_cases i <;> simp

@[simp] theorem unusedField_encodeI (op : Opcode) (r : Specifier) (imm : Imm) : unusedField (encodeI op r imm) = 0#5 := by
  ext i h; simp [unusedField, encodeI]; interval_cases i <;> simp

/-! ## Byte order (rule R32) -/

/-- The four bytes of a word, put together again, are the word. -/
@[simp] theorem wordOfBytes_byteOfWord (w : Word) :
    wordOfBytes (byteOfWord w 0) (byteOfWord w 1) (byteOfWord w 2) (byteOfWord w 3) = w := by
  ext i h; simp [wordOfBytes, byteOfWord]; interval_cases i <;> simp

@[simp] theorem byteOfWord_wordOfBytes_0 (b0 b1 b2 b3 : Byte) : byteOfWord (wordOfBytes b0 b1 b2 b3) 0 = b0 := by
  ext i h; simp [wordOfBytes, byteOfWord]; interval_cases i <;> simp

@[simp] theorem byteOfWord_wordOfBytes_1 (b0 b1 b2 b3 : Byte) : byteOfWord (wordOfBytes b0 b1 b2 b3) 1 = b1 := by
  ext i h; simp [wordOfBytes, byteOfWord]; interval_cases i <;> simp

@[simp] theorem byteOfWord_wordOfBytes_2 (b0 b1 b2 b3 : Byte) : byteOfWord (wordOfBytes b0 b1 b2 b3) 2 = b2 := by
  ext i h; simp [wordOfBytes, byteOfWord]; interval_cases i <;> simp

@[simp] theorem byteOfWord_wordOfBytes_3 (b0 b1 b2 b3 : Byte) : byteOfWord (wordOfBytes b0 b1 b2 b3) 3 = b3 := by
  ext i h; simp [wordOfBytes, byteOfWord]; interval_cases i <;> simp

/-- The word as a number (rule R33's second line). -/
theorem wordOfBytes_toNat (b0 b1 b2 b3 : Byte) :
    (wordOfBytes b0 b1 b2 b3).toNat = b0.toNat * 2 ^ 24 + b1.toNat * 2 ^ 16 + b2.toNat * 2 ^ 8 + b3.toNat := by
  have h0 := b0.isLt; have h1 := b1.isLt; have h2 := b2.isLt; have h3 := b3.isLt
  have e3 := Nat.two_pow_add_eq_or_of_lt (i := 8) h3 b2.toNat
  have e2 := Nat.two_pow_add_eq_or_of_lt (i := 16) (b := 2 ^ 8 * b2.toNat + b3.toNat) (by omega) b1.toNat
  have e1 := Nat.two_pow_add_eq_or_of_lt (i := 24)
    (b := 2 ^ 16 * b1.toNat + (2 ^ 8 * b2.toNat + b3.toNat)) (by omega) b0.toNat
  have m0 : 2 ^ 24 * b0.toNat % 2 ^ 32 = 2 ^ 24 * b0.toNat := Nat.mod_eq_of_lt (by omega)
  have m1 : 2 ^ 16 * b1.toNat % 2 ^ 32 = 2 ^ 16 * b1.toNat := Nat.mod_eq_of_lt (by omega)
  have m2 : 2 ^ 8 * b2.toNat % 2 ^ 32 = 2 ^ 8 * b2.toNat := Nat.mod_eq_of_lt (by omega)
  have n0 : b0.toNat % 2 ^ 32 = b0.toNat := Nat.mod_eq_of_lt (by omega)
  have n1 : b1.toNat % 2 ^ 32 = b1.toNat := Nat.mod_eq_of_lt (by omega)
  have n2 : b2.toNat % 2 ^ 32 = b2.toNat := Nat.mod_eq_of_lt (by omega)
  have n3 : b3.toNat % 2 ^ 32 = b3.toNat := Nat.mod_eq_of_lt (by omega)
  simp only [wordOfBytes, BitVec.toNat_or, BitVec.toNat_shiftLeft, BitVec.toNat_setWidth, Nat.shiftLeft_eq,
    n0, n1, n2, n3, Nat.mul_comm _ (2 ^ 24), Nat.mul_comm _ (2 ^ 16), Nat.mul_comm _ (2 ^ 8), m0, m1, m2, Nat.or_assoc,
    ← e3, ← e2, ← e1]
  omega

/-- The decoder on the bytes of a word is the decoder on the word. -/
theorem decodeBytes_bytesOfWord (c : Config) (w : Word) (rest : List Byte) :
    decodeBytes c (bytesOfWord w ++ rest) =
      match decode c w with
      | .ok i => .ok (i, rest)
      | .error e => .error e := by
  cases h : decode c w <;>
    simp only [decodeBytes, bytesOfWord, List.cons_append, List.nil_append, wordOfBytes_byteOfWord, h]

/-! ## The seven opcodes are distinct (rule R4) -/

/-- The distinctness of rule R4, one inequality each. -/
theorem Config.opcodes_distinct {c : Config} (h : c.opcodes.Nodup) :
    (opMv ≠ c.opAdd ∧ opMv ≠ c.opSub ∧ opMv ≠ c.opCmp ∧ opMv ≠ c.opJump ∧ opMv ≠ c.opLoad ∧ opMv ≠ c.opStore) ∧
    (c.opAdd ≠ c.opSub ∧ c.opAdd ≠ c.opCmp ∧ c.opAdd ≠ c.opJump ∧ c.opAdd ≠ c.opLoad ∧ c.opAdd ≠ c.opStore) ∧
    (c.opSub ≠ c.opCmp ∧ c.opSub ≠ c.opJump ∧ c.opSub ≠ c.opLoad ∧ c.opSub ≠ c.opStore) ∧
    (c.opCmp ≠ c.opJump ∧ c.opCmp ≠ c.opLoad ∧ c.opCmp ≠ c.opStore) ∧
    (c.opJump ≠ c.opLoad ∧ c.opJump ≠ c.opStore) ∧ c.opLoad ≠ c.opStore := by
  simp only [Config.opcodes, List.nodup_cons, List.mem_cons, not_or, List.not_mem_nil, not_false_eq_true] at h
  tauto

end Sys2Proof
end

