-- ==== Sys2Proof/Laws/State.lean ====
section
/-! SUPPORT. One lemma for each field under each update of the state, true by rfl, so that no proof unfolds a record update. -/
namespace Sys2Proof.Machine

/-! ## State.writeGpr -/

@[simp] theorem State.writeGpr_cfg (s : State) (r : Gpr) (v : Word) : (s.writeGpr r v).cfg = s.cfg := rfl
@[simp] theorem State.writeGpr_gprs (s : State) (r : Gpr) (v : Word) : (s.writeGpr r v).gprs = s.gprs.write r v := rfl
@[simp] theorem State.writeGpr_pc (s : State) (r : Gpr) (v : Word) : (s.writeGpr r v).pc = s.pc := rfl
@[simp] theorem State.writeGpr_sp (s : State) (r : Gpr) (v : Word) : (s.writeGpr r v).sp = s.sp := rfl
@[simp] theorem State.writeGpr_ir (s : State) (r : Gpr) (v : Word) : (s.writeGpr r v).ir = s.ir := rfl
@[simp] theorem State.writeGpr_sr (s : State) (r : Gpr) (v : Word) : (s.writeGpr r v).sr = s.sr := rfl
@[simp] theorem State.writeGpr_mdr (s : State) (r : Gpr) (v : Word) : (s.writeGpr r v).mdr = s.mdr := rfl
@[simp] theorem State.writeGpr_mar (s : State) (r : Gpr) (v : Word) : (s.writeGpr r v).mar = s.mar := rfl
@[simp] theorem State.writeGpr_mem (s : State) (r : Gpr) (v : Word) : (s.writeGpr r v).mem = s.mem := rfl
@[simp] theorem State.writeGpr_run (s : State) (r : Gpr) (v : Word) : (s.writeGpr r v).run = s.run := rfl

/-! ## State.setPc -/

@[simp] theorem State.setPc_cfg (s : State) (v : Word) : (s.setPc v).cfg = s.cfg := rfl
@[simp] theorem State.setPc_gprs (s : State) (v : Word) : (s.setPc v).gprs = s.gprs := rfl
@[simp] theorem State.setPc_pc (s : State) (v : Word) : (s.setPc v).pc = v := rfl
@[simp] theorem State.setPc_sp (s : State) (v : Word) : (s.setPc v).sp = s.sp := rfl
@[simp] theorem State.setPc_ir (s : State) (v : Word) : (s.setPc v).ir = s.ir := rfl
@[simp] theorem State.setPc_sr (s : State) (v : Word) : (s.setPc v).sr = s.sr := rfl
@[simp] theorem State.setPc_mdr (s : State) (v : Word) : (s.setPc v).mdr = s.mdr := rfl
@[simp] theorem State.setPc_mar (s : State) (v : Word) : (s.setPc v).mar = s.mar := rfl
@[simp] theorem State.setPc_mem (s : State) (v : Word) : (s.setPc v).mem = s.mem := rfl
@[simp] theorem State.setPc_run (s : State) (v : Word) : (s.setPc v).run = s.run := rfl
@[simp] theorem State.setPc_readGpr (s : State) (v : Word) (q : Gpr) :
    (s.setPc v).readGpr q = s.readGpr q := rfl

/-! ## State.setIr -/

@[simp] theorem State.setIr_cfg (s : State) (v : Word) : (s.setIr v).cfg = s.cfg := rfl
@[simp] theorem State.setIr_gprs (s : State) (v : Word) : (s.setIr v).gprs = s.gprs := rfl
@[simp] theorem State.setIr_pc (s : State) (v : Word) : (s.setIr v).pc = s.pc := rfl
@[simp] theorem State.setIr_sp (s : State) (v : Word) : (s.setIr v).sp = s.sp := rfl
@[simp] theorem State.setIr_ir (s : State) (v : Word) : (s.setIr v).ir = v := rfl
@[simp] theorem State.setIr_sr (s : State) (v : Word) : (s.setIr v).sr = s.sr := rfl
@[simp] theorem State.setIr_mdr (s : State) (v : Word) : (s.setIr v).mdr = s.mdr := rfl
@[simp] theorem State.setIr_mar (s : State) (v : Word) : (s.setIr v).mar = s.mar := rfl
@[simp] theorem State.setIr_mem (s : State) (v : Word) : (s.setIr v).mem = s.mem := rfl
@[simp] theorem State.setIr_run (s : State) (v : Word) : (s.setIr v).run = s.run := rfl
@[simp] theorem State.setIr_readGpr (s : State) (v : Word) (q : Gpr) :
    (s.setIr v).readGpr q = s.readGpr q := rfl

/-! ## State.setSr -/

@[simp] theorem State.setSr_cfg (s : State) (v : Word) : (s.setSr v).cfg = s.cfg := rfl
@[simp] theorem State.setSr_gprs (s : State) (v : Word) : (s.setSr v).gprs = s.gprs := rfl
@[simp] theorem State.setSr_pc (s : State) (v : Word) : (s.setSr v).pc = s.pc := rfl
@[simp] theorem State.setSr_sp (s : State) (v : Word) : (s.setSr v).sp = s.sp := rfl
@[simp] theorem State.setSr_ir (s : State) (v : Word) : (s.setSr v).ir = s.ir := rfl
@[simp] theorem State.setSr_sr (s : State) (v : Word) : (s.setSr v).sr = v := rfl
@[simp] theorem State.setSr_mdr (s : State) (v : Word) : (s.setSr v).mdr = s.mdr := rfl
@[simp] theorem State.setSr_mar (s : State) (v : Word) : (s.setSr v).mar = s.mar := rfl
@[simp] theorem State.setSr_mem (s : State) (v : Word) : (s.setSr v).mem = s.mem := rfl
@[simp] theorem State.setSr_run (s : State) (v : Word) : (s.setSr v).run = s.run := rfl
@[simp] theorem State.setSr_readGpr (s : State) (v : Word) (q : Gpr) :
    (s.setSr v).readGpr q = s.readGpr q := rfl

/-! ## State.setMem -/

@[simp] theorem State.setMem_cfg (s : State) (m : Memory) : (s.setMem m).cfg = s.cfg := rfl
@[simp] theorem State.setMem_gprs (s : State) (m : Memory) : (s.setMem m).gprs = s.gprs := rfl
@[simp] theorem State.setMem_pc (s : State) (m : Memory) : (s.setMem m).pc = s.pc := rfl
@[simp] theorem State.setMem_sp (s : State) (m : Memory) : (s.setMem m).sp = s.sp := rfl
@[simp] theorem State.setMem_ir (s : State) (m : Memory) : (s.setMem m).ir = s.ir := rfl
@[simp] theorem State.setMem_sr (s : State) (m : Memory) : (s.setMem m).sr = s.sr := rfl
@[simp] theorem State.setMem_mdr (s : State) (m : Memory) : (s.setMem m).mdr = s.mdr := rfl
@[simp] theorem State.setMem_mar (s : State) (m : Memory) : (s.setMem m).mar = s.mar := rfl
@[simp] theorem State.setMem_mem (s : State) (m : Memory) : (s.setMem m).mem = m := rfl
@[simp] theorem State.setMem_run (s : State) (m : Memory) : (s.setMem m).run = s.run := rfl
@[simp] theorem State.setMem_readGpr (s : State) (m : Memory) (q : Gpr) :
    (s.setMem m).readGpr q = s.readGpr q := rfl

/-! ## State.setRun -/

@[simp] theorem State.setRun_cfg (s : State) (r : RunState) : (s.setRun r).cfg = s.cfg := rfl
@[simp] theorem State.setRun_gprs (s : State) (r : RunState) : (s.setRun r).gprs = s.gprs := rfl
@[simp] theorem State.setRun_pc (s : State) (r : RunState) : (s.setRun r).pc = s.pc := rfl
@[simp] theorem State.setRun_sp (s : State) (r : RunState) : (s.setRun r).sp = s.sp := rfl
@[simp] theorem State.setRun_ir (s : State) (r : RunState) : (s.setRun r).ir = s.ir := rfl
@[simp] theorem State.setRun_sr (s : State) (r : RunState) : (s.setRun r).sr = s.sr := rfl
@[simp] theorem State.setRun_mdr (s : State) (r : RunState) : (s.setRun r).mdr = s.mdr := rfl
@[simp] theorem State.setRun_mar (s : State) (r : RunState) : (s.setRun r).mar = s.mar := rfl
@[simp] theorem State.setRun_mem (s : State) (r : RunState) : (s.setRun r).mem = s.mem := rfl
@[simp] theorem State.setRun_run (s : State) (r : RunState) : (s.setRun r).run = r := rfl
@[simp] theorem State.setRun_readGpr (s : State) (r : RunState) (q : Gpr) :
    (s.setRun r).readGpr q = s.readGpr q := rfl

/-! ## State.fetched -/

@[simp] theorem State.fetched_cfg (s : State) (w : Word) : (s.fetched w).cfg = s.cfg := rfl
@[simp] theorem State.fetched_gprs (s : State) (w : Word) : (s.fetched w).gprs = s.gprs := rfl
@[simp] theorem State.fetched_pc (s : State) (w : Word) : (s.fetched w).pc = s.pc + 4#32 := rfl
@[simp] theorem State.fetched_sp (s : State) (w : Word) : (s.fetched w).sp = s.sp := rfl
@[simp] theorem State.fetched_ir (s : State) (w : Word) : (s.fetched w).ir = w := rfl
@[simp] theorem State.fetched_sr (s : State) (w : Word) : (s.fetched w).sr = s.sr := rfl
@[simp] theorem State.fetched_mdr (s : State) (w : Word) : (s.fetched w).mdr = s.mdr := rfl
@[simp] theorem State.fetched_mar (s : State) (w : Word) : (s.fetched w).mar = s.mar := rfl
@[simp] theorem State.fetched_mem (s : State) (w : Word) : (s.fetched w).mem = s.mem := rfl
@[simp] theorem State.fetched_run (s : State) (w : Word) : (s.fetched w).run = s.run := rfl
@[simp] theorem State.fetched_readGpr (s : State) (w : Word) (q : Gpr) :
    (s.fetched w).readGpr q = s.readGpr q := rfl

/-! ## State.raise -/

@[simp] theorem State.raise_cfg (s : State) (c : FaultCause) (a : Word) (w : Option Word) (g : Option Nat) :
    (s.raise c a w g).cfg = s.cfg := rfl
@[simp] theorem State.raise_gprs (s : State) (c : FaultCause) (a : Word) (w : Option Word) (g : Option Nat) :
    (s.raise c a w g).gprs = s.gprs := rfl
@[simp] theorem State.raise_pc (s : State) (c : FaultCause) (a : Word) (w : Option Word) (g : Option Nat) :
    (s.raise c a w g).pc = s.pc := rfl
@[simp] theorem State.raise_sp (s : State) (c : FaultCause) (a : Word) (w : Option Word) (g : Option Nat) :
    (s.raise c a w g).sp = s.sp := rfl
@[simp] theorem State.raise_ir (s : State) (c : FaultCause) (a : Word) (w : Option Word) (g : Option Nat) :
    (s.raise c a w g).ir = s.ir := rfl
@[simp] theorem State.raise_sr (s : State) (c : FaultCause) (a : Word) (w : Option Word) (g : Option Nat) :
    (s.raise c a w g).sr = s.sr := rfl
@[simp] theorem State.raise_mdr (s : State) (c : FaultCause) (a : Word) (w : Option Word) (g : Option Nat) :
    (s.raise c a w g).mdr = s.mdr := rfl
@[simp] theorem State.raise_mar (s : State) (c : FaultCause) (a : Word) (w : Option Word) (g : Option Nat) :
    (s.raise c a w g).mar = s.mar := rfl
@[simp] theorem State.raise_mem (s : State) (c : FaultCause) (a : Word) (w : Option Word) (g : Option Nat) :
    (s.raise c a w g).mem = s.mem := rfl
@[simp] theorem State.raise_run (s : State) (c : FaultCause) (a : Word) (w : Option Word) (g : Option Nat) :
    (s.raise c a w g).run =
      .faulted { kind := c.kind, cause := c, addr := a, word := w, target := g } := rfl
@[simp] theorem State.raise_readGpr (s : State) (c : FaultCause) (a : Word) (w : Option Word) (g : Option Nat) (q : Gpr) :
    (s.raise c a w g).readGpr q = s.readGpr q := rfl

/-! ## State.raiseFetched -/

@[simp] theorem State.raiseFetched_cfg (s : State) (c : FaultCause) (g : Option Nat) : (s.raiseFetched c g).cfg = s.cfg := rfl
@[simp] theorem State.raiseFetched_gprs (s : State) (c : FaultCause) (g : Option Nat) : (s.raiseFetched c g).gprs = s.gprs := rfl
@[simp] theorem State.raiseFetched_pc (s : State) (c : FaultCause) (g : Option Nat) : (s.raiseFetched c g).pc = s.pc := rfl
@[simp] theorem State.raiseFetched_sp (s : State) (c : FaultCause) (g : Option Nat) : (s.raiseFetched c g).sp = s.sp := rfl
@[simp] theorem State.raiseFetched_ir (s : State) (c : FaultCause) (g : Option Nat) : (s.raiseFetched c g).ir = s.ir := rfl
@[simp] theorem State.raiseFetched_sr (s : State) (c : FaultCause) (g : Option Nat) : (s.raiseFetched c g).sr = s.sr := rfl
@[simp] theorem State.raiseFetched_mdr (s : State) (c : FaultCause) (g : Option Nat) : (s.raiseFetched c g).mdr = s.mdr := rfl
@[simp] theorem State.raiseFetched_mar (s : State) (c : FaultCause) (g : Option Nat) : (s.raiseFetched c g).mar = s.mar := rfl
@[simp] theorem State.raiseFetched_mem (s : State) (c : FaultCause) (g : Option Nat) : (s.raiseFetched c g).mem = s.mem := rfl
@[simp] theorem State.raiseFetched_run (s : State) (c : FaultCause) (g : Option Nat) :
    (s.raiseFetched c g).run =
      .faulted { kind := c.kind, cause := c, addr := s.pc - 4#32, word := some s.ir, target := g } := rfl
@[simp] theorem State.raiseFetched_readGpr (s : State) (c : FaultCause) (g : Option Nat) (q : Gpr) :
    (s.raiseFetched c g).readGpr q = s.readGpr q := rfl

/-! ## State.raiseFetch -/

@[simp] theorem State.raiseFetch_cfg (s : State) : (s.raiseFetch).cfg = s.cfg := rfl
@[simp] theorem State.raiseFetch_gprs (s : State) : (s.raiseFetch).gprs = s.gprs := rfl
@[simp] theorem State.raiseFetch_pc (s : State) : (s.raiseFetch).pc = s.pc := rfl
@[simp] theorem State.raiseFetch_sp (s : State) : (s.raiseFetch).sp = s.sp := rfl
@[simp] theorem State.raiseFetch_ir (s : State) : (s.raiseFetch).ir = s.ir := rfl
@[simp] theorem State.raiseFetch_sr (s : State) : (s.raiseFetch).sr = s.sr := rfl
@[simp] theorem State.raiseFetch_mdr (s : State) : (s.raiseFetch).mdr = s.mdr := rfl
@[simp] theorem State.raiseFetch_mar (s : State) : (s.raiseFetch).mar = s.mar := rfl
@[simp] theorem State.raiseFetch_mem (s : State) : (s.raiseFetch).mem = s.mem := rfl
@[simp] theorem State.raiseFetch_run (s : State) :
    (s.raiseFetch).run =
      .faulted { kind := .memoryFault, cause := .fetchOutOfBounds, addr := s.pc, word := none, target := some s.pc.toNat } := rfl
@[simp] theorem State.raiseFetch_readGpr (s : State) (q : Gpr) :
    (s.raiseFetch).readGpr q = s.readGpr q := rfl

end Sys2Proof.Machine
end

