-- ==== Sys2Proof/Laws/Memory.lean ====
section
/-! SUPPORT. Laws of memory as data: read after write, the canonical form, and the memory of an image. -/
namespace Sys2Proof.Machine

/-! ## Read after write -/

theorem Memory.read_erase (m : Memory) (a x : Nat) :
    Memory.read (Memory.erase m a) x = if x = a then Memory.unlisted else Memory.read m x := by
  induction m with
  | nil => simp [Memory.erase, Memory.read]
  | cons c m ih =>
    obtain ⟨k, b⟩ := c
    by_cases hk : k = a
    · subst hk
      by_cases hx : x = k
      · subst hx; simp [Memory.erase, ih]
      · simp [Memory.erase, Memory.read, ih, hx, Ne.symm hx]
    · by_cases hx : k = x
      · subst hx; simp [Memory.erase, Memory.read, hk]
      · simp [Memory.erase, Memory.read, hk, hx, ih]

theorem Memory.read_insert (m : Memory) (a x : Nat) (v : Byte) :
    Memory.read (Memory.insert m a v) x = if x = a then v else Memory.read m x := by
  induction m with
  | nil => simp [Memory.insert, Memory.read, eq_comm]
  | cons c m ih =>
    obtain ⟨k, b⟩ := c
    unfold Memory.insert
    split
    · simp [Memory.read, eq_comm]
    · split
      · next h => subst h; by_cases hx : a = x <;> simp [Memory.read, hx, eq_comm]
      · next h => by_cases hx : k = x
                  · subst hx; simp [Memory.read, Ne.symm h]
                  · simp [Memory.read, hx, ih]

/-- What a read gives after a write: the written byte there, everything else as before. -/
theorem Memory.read_write (m : Memory) (a x : Nat) (v : Byte) :
    Memory.read (Memory.write m a v) x = if x = a then v else Memory.read m x := by
  unfold Memory.write
  split
  · next h => rw [Memory.read_erase, h]
  · exact Memory.read_insert m a x v

@[simp] theorem Memory.read_write_same (m : Memory) (a : Nat) (v : Byte) : Memory.read (Memory.write m a v) a = v := by
  simp [Memory.read_write]

theorem Memory.read_write_other (m : Memory) {a x : Nat} (v : Byte) (h : x ≠ a) :
    Memory.read (Memory.write m a v) x = Memory.read m x := by
  simp [Memory.read_write, h]

/-! ## The canonical form -/

theorem Memory.wfFrom_cons {lo k : Nat} {b : Byte} {m : Memory} :
    Memory.wfFrom lo ((k, b) :: m) = true ↔ lo ≤ k ∧ b ≠ Memory.unlisted ∧ Memory.wfFrom (k + 1) m = true := by
  simp [Memory.wfFrom, and_assoc]

theorem Memory.wfFrom_mono {lo hi : Nat} {m : Memory} (h : Memory.wfFrom hi m = true) (le : lo ≤ hi) :
    Memory.wfFrom lo m = true := by
  cases m with
  | nil => rfl
  | cons c m =>
    obtain ⟨h1, h2⟩ := Memory.wfFrom_cons.1 h
    exact Memory.wfFrom_cons.2 ⟨by omega, h2⟩

theorem Memory.wfFrom_erase {lo : Nat} {m : Memory} (a : Nat) (h : Memory.wfFrom lo m = true) :
    Memory.wfFrom lo (Memory.erase m a) = true := by
  induction m generalizing lo with
  | nil => rfl
  | cons c m ih =>
    obtain ⟨k, b⟩ := c
    obtain ⟨h1, h2, h3⟩ := Memory.wfFrom_cons.1 h
    unfold Memory.erase
    split
    · exact Memory.wfFrom_mono (ih h3) (by omega)
    · exact Memory.wfFrom_cons.2 ⟨h1, h2, ih h3⟩

theorem Memory.wfFrom_insert {lo a : Nat} {v : Byte} {m : Memory} (h : Memory.wfFrom lo m = true) (la : lo ≤ a)
    (hv : v ≠ Memory.unlisted) : Memory.wfFrom lo (Memory.insert m a v) = true := by
  induction m generalizing lo with
  | nil => exact Memory.wfFrom_cons.2 ⟨la, hv, rfl⟩
  | cons c m ih =>
    obtain ⟨k, b⟩ := c
    obtain ⟨h1, h2, h3⟩ := Memory.wfFrom_cons.1 h
    unfold Memory.insert
    split
    · exact Memory.wfFrom_cons.2 ⟨la, hv, Memory.wfFrom_cons.2 ⟨by omega, h2, h3⟩⟩
    · split
      · next e => subst e; exact Memory.wfFrom_cons.2 ⟨la, hv, h3⟩
      · exact Memory.wfFrom_cons.2 ⟨h1, h2, ih h3 (by omega)⟩

/-- Every write keeps the canonical form. -/
theorem Memory.wf_write {m : Memory} (a : Nat) (v : Byte) (h : Memory.wf m = true) :
    Memory.wf (Memory.write m a v) = true := by
  unfold Memory.write
  split
  · exact Memory.wfFrom_erase a h
  · next hv => exact Memory.wfFrom_insert h (Nat.zero_le a) hv

theorem Memory.wfFrom_ofImage (a : Nat) (bytes : List Byte) : Memory.wfFrom a (Memory.ofImage a bytes) = true := by
  induction bytes generalizing a with
  | nil => rfl
  | cons b bytes ih =>
    unfold Memory.ofImage
    split
    · exact Memory.wfFrom_mono (ih (a + 1)) (by omega)
    · next h => exact Memory.wfFrom_cons.2 ⟨le_refl a, h, ih (a + 1)⟩

/-- The memory of an image has the canonical form. -/
theorem Memory.wf_ofImage (bytes : List Byte) : Memory.wf (Memory.ofImage 0 bytes) = true :=
  Memory.wfFrom_ofImage 0 bytes

theorem Memory.read_below {lo a : Nat} {m : Memory} (h : Memory.wfFrom lo m = true) (ha : a < lo) :
    Memory.read m a = Memory.unlisted := by
  induction m generalizing lo with
  | nil => rfl
  | cons c m ih =>
    obtain ⟨k, b⟩ := c
    obtain ⟨h1, _, h3⟩ := Memory.wfFrom_cons.1 h
    have hk : k ≠ a := by omega
    simp [Memory.read, hk, ih h3 (by omega)]

/-- Canonical memories with the same bytes are the same list. -/
theorem Memory.wfFrom_ext {lo : Nat} {m n : Memory} (hm : Memory.wfFrom lo m = true) (hn : Memory.wfFrom lo n = true)
    (e : ∀ a, Memory.read m a = Memory.read n a) : m = n := by
  induction m generalizing lo n with
  | nil =>
    cases n with
    | nil => rfl
    | cons c n =>
      obtain ⟨k, b⟩ := c
      obtain ⟨_, h2, _⟩ := Memory.wfFrom_cons.1 hn
      exact absurd (by simpa [Memory.read] using (e k).symm) h2
  | cons c m ih =>
    obtain ⟨k, b⟩ := c
    obtain ⟨h1, h2, h3⟩ := Memory.wfFrom_cons.1 hm
    cases n with
    | nil => exact absurd (by simpa [Memory.read] using e k) h2
    | cons d n =>
      obtain ⟨l, y⟩ := d
      obtain ⟨g1, g2, g3⟩ := Memory.wfFrom_cons.1 hn
      have hkl : k = l := by
        rcases Nat.lt_trichotomy k l with h | h | h
        · have hl : l ≠ k := by omega
          have := e k
          simp [Memory.read, hl, Memory.read_below g3 (show k < l + 1 by omega)] at this
          exact absurd this h2
        · exact h
        · have hl : k ≠ l := by omega
          have := e l
          simp [Memory.read, hl, Memory.read_below h3 (show l < k + 1 by omega)] at this
          exact absurd this.symm g2
      subst hkl
      have hb : b = y := by simpa [Memory.read] using e k
      subst hb
      have : m = n := by
        refine ih h3 g3 fun a => ?_
        by_cases ha : a = k
        · subst ha; rw [Memory.read_below h3 (by omega), Memory.read_below g3 (by omega)]
        · simpa [Memory.read, Ne.symm ha] using e a
      rw [this]

/-! ## No cell outside memory -/

theorem Memory.within_cons {n k : Nat} {b : Byte} {m : Memory} :
    Memory.within n ((k, b) :: m) = true ↔ k < n ∧ Memory.within n m = true := by
  simp [Memory.within]

theorem Memory.within_write {n a : Nat} {v : Byte} {m : Memory} (h : Memory.within n m = true) (ha : a < n) :
    Memory.within n (Memory.write m a v) = true := by
  unfold Memory.write
  split
  · induction m with
    | nil => rfl
    | cons c m ih =>
      obtain ⟨k, b⟩ := c
      obtain ⟨h1, h2⟩ := Memory.within_cons.1 h
      unfold Memory.erase
      split
      · exact ih h2
      · exact Memory.within_cons.2 ⟨h1, ih h2⟩
  · induction m with
    | nil => exact Memory.within_cons.2 ⟨ha, rfl⟩
    | cons c m ih =>
      obtain ⟨k, b⟩ := c
      obtain ⟨h1, h2⟩ := Memory.within_cons.1 h
      unfold Memory.insert
      split
      · exact Memory.within_cons.2 ⟨ha, h⟩
      · split
        · exact Memory.within_cons.2 ⟨ha, h2⟩
        · exact Memory.within_cons.2 ⟨h1, ih h2⟩

theorem Memory.within_ofImage (n a : Nat) (bytes : List Byte) (h : a + bytes.length ≤ n) :
    Memory.within n (Memory.ofImage a bytes) = true := by
  induction bytes generalizing a with
  | nil => rfl
  | cons b bytes ih =>
    simp only [List.length_cons] at h
    unfold Memory.ofImage
    split
    · exact ih (a + 1) (by omega)
    · exact Memory.within_cons.2 ⟨by omega, ih (a + 1) (by omega)⟩

/-! ## The bytes of an image -/

theorem Memory.read_ofImage (a x : Nat) (bytes : List Byte) :
    Memory.read (Memory.ofImage a bytes) (a + x) = bytes.getD x Memory.unlisted := by
  induction bytes generalizing a x with
  | nil => simp [Memory.ofImage, Memory.read]
  | cons b bytes ih =>
    unfold Memory.ofImage
    cases x with
    | zero =>
      split
      · next h => simp [h, Memory.read_below (Memory.wfFrom_ofImage (a + 1) bytes) (show a < a + 1 by omega)]
      · simp [Memory.read]
    | succ x =>
      have e : a + (x + 1) = a + 1 + x := by omega
      split
      · rw [e, ih]; simp
      · rw [e]; simp [Memory.read, ih, show a ≠ a + 1 + x by omega]

end Sys2Proof.Machine
end

