-- ==== Sys2Proof/Laws/Registers.lean ====
section
/-! SUPPORT. Laws of the general registers and of their specifiers. -/
namespace Sys2Proof.Machine

@[simp] theorem GprFile.read_write_same (g : GprFile) (r : Gpr) (v : Word) : (g.write r v).read r = v := by
  cases r <;> rfl

theorem GprFile.read_write_other (g : GprFile) {r q : Gpr} (v : Word) (h : q ≠ r) : (g.write r v).read q = g.read q := by
  cases r <;> cases q <;> first | rfl | exact absurd rfl h

/-- Writing a register and reading any register of the state. -/
theorem State.readGpr_writeGpr (s : State) (r q : Gpr) (v : Word) :
    (s.writeGpr r v).readGpr q = if q = r then v else s.readGpr q := by
  by_cases h : q = r
  · subst h; simp [State.readGpr]
  · simp [State.readGpr, GprFile.read_write_other _ _ h, h]

@[simp] theorem State.readGpr_writeGpr_same (s : State) (r : Gpr) (v : Word) : (s.writeGpr r v).readGpr r = v := by
  simp [State.readGpr_writeGpr]

/-- Register files with the same six contents are equal. -/
theorem GprFile.ext_read {g h : GprFile} (e : ∀ r, g.read r = h.read r) : g = h := by
  obtain ⟨g0, g1, g2, g3, g4, g5⟩ := g
  obtain ⟨h0, h1, h2, h3, h4, h5⟩ := h
  have e0 := e .w0; have e1 := e .w1; have e2 := e .w2
  have e3 := e .w3; have e4 := e .w4; have e5 := e .w5
  simp only [GprFile.read] at e0 e1 e2 e3 e4 e5
  simp [e0, e1, e2, e3, e4, e5]

/-- The number of a register (rule R12). -/
def Gpr.number : Gpr → Nat
  | .w0 => 0 | .w1 => 1 | .w2 => 2 | .w3 => 3 | .w4 => 4 | .w5 => 5

theorem gpr_eq_some_iff (f : Specifier) (r : Gpr) : gpr f = some r ↔ f.toNat = r.number := by
  unfold gpr
  split <;> cases r <;> simp_all [Gpr.number]

theorem gpr_eq_none_iff (f : Specifier) : gpr f = none ↔ 5 < f.toNat := by
  unfold gpr
  split <;> simp_all
  omega

theorem gpr_isSome_iff_valid (f : Specifier) : (gpr f).isSome = Specifier.valid f := by
  cases h : gpr f with
  | none => have := (gpr_eq_none_iff f).1 h; simp [Specifier.valid]; omega
  | some r =>
    have h5 : ¬ 5 < f.toNat := fun hn => by simp [(gpr_eq_none_iff f).2 hn] at h
    simp [Specifier.valid]; omega

theorem State.withGpr_of_some {s : State} {f : Specifier} {r : Gpr} (h : gpr f = some r)
    (k : Gpr → Host.Outcome State Fault Refusal) : s.withGpr f k = k r := by
  simp [State.withGpr, h]

theorem State.withGpr_of_none {s : State} {f : Specifier} (h : gpr f = none)
    (k : Gpr → Host.Outcome State Fault Refusal) :
    s.withGpr f k = .next (s.raiseFetched .invalidRegister none) := by
  simp [State.withGpr, h]

/-- All that naming a register can do: the register exists and the rest runs, or the fault is taken. -/
theorem State.withGpr_cases {s t : State} {f : Specifier} {k : Gpr → Host.Outcome State Fault Refusal}
    (h : s.withGpr f k = .next t) :
    (∃ r, gpr f = some r ∧ k r = .next t) ∨ (gpr f = none ∧ t = s.raiseFetched .invalidRegister none) := by
  cases hf : gpr f with
  | none =>
    rw [State.withGpr_of_none hf] at h
    exact .inr ⟨rfl, by injection h with h; exact h.symm⟩
  | some r => exact .inl ⟨r, rfl, by rwa [State.withGpr_of_some hf] at h⟩

end Sys2Proof.Machine
end

