-- ==== Sys2Proof/Laws/Ops.lean ====
section
/-! SUPPORT. What each shared operation can do, said once. -/
namespace Sys2Proof.Machine

/-! ## The access primitives -/

/-- All that `MemRead(addr, 4)` can answer. -/
theorem State.memRead4_eq_some_iff (s : State) (addr w : Word) :
    s.memRead4 addr = some w ↔
      addr.toNat + 4 ≤ s.cfg.memSize ∧
        w = wordOfBytes (Memory.read s.mem addr.toNat) (Memory.read s.mem (addr.toNat + 1))
          (Memory.read s.mem (addr.toNat + 2)) (Memory.read s.mem (addr.toNat + 3)) := by
  unfold State.memRead4
  simp only []
  split
  · simp; omega
  · simp [eq_comm]; omega

theorem State.memRead4_eq_none_iff (s : State) (addr : Word) :
    s.memRead4 addr = none ↔ s.cfg.memSize < addr.toNat + 4 := by
  simp [State.memRead4]

/-- A read sees only the configuration and the bytes of memory. -/
theorem State.memRead4_congr {s t : State} (hc : t.cfg = s.cfg) (hm : t.mem = s.mem) (addr : Word) :
    t.memRead4 addr = s.memRead4 addr := by
  simp [State.memRead4, hc, hm]

/-- All that `MemWrite(addr, 1, v)` can answer. -/
theorem State.memWrite1_eq_some_iff (s t : State) (addr : Word) (v : Byte) :
    s.memWrite1 addr v = some t ↔
      addr.toNat < s.cfg.memSize ∧ t = s.setMem (Memory.write s.mem addr.toNat v) := by
  unfold State.memWrite1
  split
  · simp; omega
  · simp [eq_comm]; omega

theorem State.memWrite1_eq_none_iff (s : State) (addr : Word) (v : Byte) :
    s.memWrite1 addr v = none ↔ s.cfg.memSize ≤ addr.toNat := by
  simp [State.memWrite1]

/-! ## Fetch -/

/-- All that the fetch can answer. -/
theorem State.fetch_eq_some_iff (s t : State) :
    s.fetch = some t ↔ ∃ w, s.memRead4 s.pc = some w ∧ t = s.fetched w := by
  simp [State.fetch, eq_comm]

theorem State.fetch_eq_none_iff (s : State) : s.fetch = none ↔ s.cfg.memSize < s.pc.toNat + 4 := by
  simp [State.fetch, State.memRead4_eq_none_iff]

/-- After a fetch the instruction's address is the `PC` the step began with (rule R15). -/
@[simp] theorem State.instrAddr_fetched (s : State) (w : Word) : (s.fetched w).instrAddr = s.pc := by
  simp [State.instrAddr]

/-! ## Operands -/

@[simp] theorem zext32_toNat (imm : Imm) : (zext32 imm).toNat = imm.toNat := by
  have := imm.isLt
  simp [zext32]
  omega

theorem lowByte_toNat (v : Word) : (lowByte v).toNat = v.toNat % 256 := by
  simp [lowByte]

/-! ## The flag computation -/

/-- The three outcomes of a compare, each exactly when its relation holds. -/
theorem compareStatus_iff (a b : Word) :
    (compareStatus a b = 0#32 ↔ a = b) ∧ (compareStatus a b = 1#32 ↔ a.toNat < b.toNat) ∧
      (compareStatus a b = 2#32 ↔ b.toNat < a.toNat) := by
  unfold compareStatus
  simp only [BitVec.lt_def]
  split
  · next h => subst h; simp
  · next h =>
    have : a.toNat ≠ b.toNat := fun e => h (BitVec.eq_of_toNat_eq e)
    split <;> simp [h] <;> omega

theorem compareStatus_cases (a b : Word) :
    compareStatus a b = 0#32 ∨ compareStatus a b = 1#32 ∨ compareStatus a b = 2#32 := by
  unfold compareStatus
  split
  · exact .inl rfl
  · split
    · exact .inr (.inl rfl)
    · exact .inr (.inr rfl)

end Sys2Proof.Machine
end

