-- ==== Sys2Proof/Laws/Meanings.lean ====
section
/-! SUPPORT. What each meaning can answer, said once: every next state it has. Callers cite these instead of unfolding a meaning. -/
namespace Sys2Proof.Machine

theorem execHalt_cases {s t : State} (h : execHalt s = .next t) : t = (s.setPc (s.pc - 4#32)).setRun .halted := by
  injection h with h; exact h.symm

theorem execMv_cases {reg : Specifier} {imm : Imm} {s t : State} (h : execMv reg imm s = .next t) :
    (∃ d, gpr reg = some d ∧ t = s.writeGpr d (zext32 imm)) ∨
      (gpr reg = none ∧ t = s.raiseFetched .invalidRegister none) := by
  rcases State.withGpr_cases h with ⟨d, hd, h⟩ | h
  · exact .inl ⟨d, hd, by injection h with h; exact h.symm⟩
  · exact .inr h

theorem execAdd_cases {rd rs1 rs2 : Specifier} {s t : State} (h : execAdd rd rs1 rs2 s = .next t) :
    (∃ d a b, gpr rd = some d ∧ gpr rs1 = some a ∧ gpr rs2 = some b ∧
        t = s.writeGpr d (s.readGpr a + s.readGpr b)) ∨
      ((gpr rd = none ∨ gpr rs1 = none ∨ gpr rs2 = none) ∧ t = s.raiseFetched .invalidRegister none) := by
  rcases State.withGpr_cases h with ⟨d, hd, h⟩ | ⟨hd, h⟩
  · rcases State.withGpr_cases h with ⟨a, ha, h⟩ | ⟨ha, h⟩
    · rcases State.withGpr_cases h with ⟨b, hb, h⟩ | ⟨hb, h⟩
      · exact .inl ⟨d, a, b, hd, ha, hb, by injection h with h; exact h.symm⟩
      · exact .inr ⟨.inr (.inr hb), h⟩
    · exact .inr ⟨.inr (.inl ha), h⟩
  · exact .inr ⟨.inl hd, h⟩

theorem execSub_cases {rd rs1 rs2 : Specifier} {s t : State} (h : execSub rd rs1 rs2 s = .next t) :
    (∃ d a b, gpr rd = some d ∧ gpr rs1 = some a ∧ gpr rs2 = some b ∧
        t = s.writeGpr d (s.readGpr a - s.readGpr b)) ∨
      ((gpr rd = none ∨ gpr rs1 = none ∨ gpr rs2 = none) ∧ t = s.raiseFetched .invalidRegister none) := by
  rcases State.withGpr_cases h with ⟨d, hd, h⟩ | ⟨hd, h⟩
  · rcases State.withGpr_cases h with ⟨a, ha, h⟩ | ⟨ha, h⟩
    · rcases State.withGpr_cases h with ⟨b, hb, h⟩ | ⟨hb, h⟩
      · exact .inl ⟨d, a, b, hd, ha, hb, by injection h with h; exact h.symm⟩
      · exact .inr ⟨.inr (.inr hb), h⟩
    · exact .inr ⟨.inr (.inl ha), h⟩
  · exact .inr ⟨.inl hd, h⟩

theorem execCmp_cases {rs1 rs2 : Specifier} {s t : State} (h : execCmp rs1 rs2 s = .next t) :
    (∃ a b, gpr rs1 = some a ∧ gpr rs2 = some b ∧ t = s.setSr (compareStatus (s.readGpr a) (s.readGpr b))) ∨
      ((gpr rs1 = none ∨ gpr rs2 = none) ∧ t = s.raiseFetched .invalidRegister none) := by
  rcases State.withGpr_cases h with ⟨a, ha, h⟩ | ⟨ha, h⟩
  · rcases State.withGpr_cases h with ⟨b, hb, h⟩ | ⟨hb, h⟩
    · exact .inl ⟨a, b, ha, hb, by injection h with h; exact h.symm⟩
    · exact .inr ⟨.inr hb, h⟩
  · exact .inr ⟨.inl ha, h⟩

theorem execJump_cases {imm : Imm} {s t : State} (h : execJump imm s = .next t) : t = s.setPc (zext32 imm) := by
  injection h with h; exact h.symm

theorem execLoad_cases {reg : Specifier} {imm : Imm} {s t : State} (h : execLoad reg imm s = .next t) :
    (∃ d, gpr reg = some d ∧ t = s.writeGpr d (zext32 imm)) ∨
      (gpr reg = none ∧ t = s.raiseFetched .invalidRegister none) := by
  rcases State.withGpr_cases h with ⟨d, hd, h⟩ | h
  · exact .inl ⟨d, hd, by injection h with h; exact h.symm⟩
  · exact .inr h

theorem execStore_cases {reg : Specifier} {imm : Imm} {s t : State} (h : execStore reg imm s = .next t) :
    (∃ r, gpr reg = some r ∧ imm.toNat < s.cfg.memSize ∧
        t = s.setMem (Memory.write s.mem imm.toNat (lowByte (s.readGpr r)))) ∨
      (gpr reg = none ∧ t = s.raiseFetched .invalidRegister none) ∨
      (∃ r, gpr reg = some r ∧ s.cfg.memSize ≤ imm.toNat ∧
        t = s.raiseFetched .storeOutOfBounds (some imm.toNat)) := by
  rcases State.withGpr_cases h with ⟨r, hr, h⟩ | h
  · cases hw : s.memWrite1 (zext32 imm) (lowByte (s.readGpr r)) with
    | some u =>
      simp only [hw] at h
      injection h with h
      subst h
      obtain ⟨h1, h2⟩ := (State.memWrite1_eq_some_iff ..).1 hw
      simp only [zext32_toNat] at h1 h2
      exact .inl ⟨r, hr, h1, h2⟩
    | none =>
      simp only [hw] at h
      injection h with h
      have h1 := (State.memWrite1_eq_none_iff ..).1 hw
      simp only [zext32_toNat] at h1 h
      exact .inr (.inr ⟨r, hr, h1, h.symm⟩)
  · exact .inr (.inl h)

/-- Naming a register stops nothing: where every continuation answers a next state, so does the whole. -/
theorem State.withGpr_total (s : State) (f : Specifier) {k : Gpr → Host.Outcome State Fault Refusal}
    (hk : ∀ r, ∃ t, k r = .next t) : ∃ t, s.withGpr f k = .next t := by
  cases h : gpr f with
  | none => exact ⟨_, State.withGpr_of_none h k⟩
  | some r => obtain ⟨t, ht⟩ := hk r; exact ⟨t, by rw [State.withGpr_of_some h, ht]⟩

end Sys2Proof.Machine
end

