-- ==== Sys2Proof/Laws/PerInstr.lean ====
section
/-! SUPPORT. Statements about every instruction, one lemma for each constructor. -/
namespace Sys2Proof.Laws

/-- The encoder writes canonical words (30_encoding.md rule R63): for an instruction that names only registers that exist, the
encoder's word is the zero word of HALT or passes the canonical-word check. -/
def CanonicalEncoding.Statement (i : Instr) : Prop :=
  ∀ c : Config, c.Wf → i.wf = true → i = .halt ∨ canonicalWord c (encode c i) = true

theorem CanonicalEncoding.halt : CanonicalEncoding.Statement .halt := fun _ _ _ => .inl rfl

theorem CanonicalEncoding.mv (reg : Specifier) (imm : Imm) : CanonicalEncoding.Statement (.mv reg imm) := by
  intro c hc hi
  have d := Config.opcodes_distinct hc.2.2
  simp only [Instr.wf, Instr.usedSpecifiers, List.all_cons, List.all_nil, Bool.and_true] at hi
  simp [canonicalWord, encode, isROpcode, hi, d]

theorem CanonicalEncoding.add (rd rs1 rs2 : Specifier) : CanonicalEncoding.Statement (.add rd rs1 rs2) := by
  intro c hc hi
  have d := Config.opcodes_distinct hc.2.2
  simp only [Instr.wf, Instr.usedSpecifiers, List.all_cons, List.all_nil, Bool.and_true, Bool.and_eq_true] at hi
  simp [canonicalWord, encode, isROpcode, hi, d]

theorem CanonicalEncoding.sub (rd rs1 rs2 : Specifier) : CanonicalEncoding.Statement (.sub rd rs1 rs2) := by
  intro c hc hi
  have d := Config.opcodes_distinct hc.2.2
  simp only [Instr.wf, Instr.usedSpecifiers, List.all_cons, List.all_nil, Bool.and_true, Bool.and_eq_true] at hi
  simp [canonicalWord, encode, isROpcode, hi, d]

theorem CanonicalEncoding.cmp (rs1 rs2 : Specifier) : CanonicalEncoding.Statement (.cmp rs1 rs2) := by
  intro c _ hi
  simp only [Instr.wf, Instr.usedSpecifiers, List.all_cons, List.all_nil, Bool.and_true, Bool.and_eq_true] at hi
  simpa [canonicalWord, encode, isROpcode, Specifier.valid] using hi

theorem CanonicalEncoding.jump (imm : Imm) : CanonicalEncoding.Statement (.jump imm) := by
  intro c hc _
  have d := Config.opcodes_distinct hc.2.2
  simp [canonicalWord, encode, isROpcode, Specifier.valid, d.2.1.2.2.1.symm, d.2.2.1.2.1.symm, d.2.2.2.1.1.symm]

theorem CanonicalEncoding.load (reg : Specifier) (imm : Imm) : CanonicalEncoding.Statement (.load reg imm) := by
  intro c hc hi
  have d := Config.opcodes_distinct hc.2.2
  simp only [Instr.wf, Instr.usedSpecifiers, List.all_cons, List.all_nil, Bool.and_true] at hi
  simp [canonicalWord, encode, isROpcode, hi, d.2.1.2.2.2.1.symm, d.2.2.1.2.2.1.symm, d.2.2.2.1.2.1.symm,
    d.2.2.2.2.1.1.symm]

theorem CanonicalEncoding.store (reg : Specifier) (imm : Imm) : CanonicalEncoding.Statement (.store reg imm) := by
  intro c hc hi
  have d := Config.opcodes_distinct hc.2.2
  simp only [Instr.wf, Instr.usedSpecifiers, List.all_cons, List.all_nil, Bool.and_true] at hi
  simp [canonicalWord, encode, isROpcode, hi, d.2.1.2.2.2.2.symm, d.2.2.1.2.2.2.symm, d.2.2.2.1.2.2.symm,
    d.2.2.2.2.1.2.symm]

end Sys2Proof.Laws
end

