-- ==== Sys2Proof/Laws/Step.lean ====
section
/-! SUPPORT. What one step can do, said once. -/
namespace Sys2Proof.Machine

theorem step_of_not_running {s : State} (h : s.run ≠ .running) : step s = .next s := by
  unfold step
  cases hr : s.run with
  | running => exact absurd hr h
  | halted => rfl
  | faulted r => rfl

theorem step_of_fetch_none {s : State} (hr : s.run = .running) (h : s.memRead4 s.pc = none) :
    step s = .next s.raiseFetch := by
  simp [step, hr, State.fetch, h]

theorem step_of_decode_error {s : State} {w : Word} {e : DecodeReject} (hr : s.run = .running)
    (hw : s.memRead4 s.pc = some w) (hd : decode s.cfg w = .error e) :
    step s = .next ((s.fetched w).raiseFetched .unknownOpcode none) := by
  simp [step, hr, State.fetch, hw, hd]

/-- All that a step of a running machine can do. -/
theorem step_cases {s t : State} (hr : s.run = .running) (h : step s = .next t) :
    (s.memRead4 s.pc = none ∧ t = s.raiseFetch) ∨
      ∃ w, s.memRead4 s.pc = some w ∧
        ((∃ e, decode s.cfg w = .error e ∧ t = (s.fetched w).raiseFetched .unknownOpcode none) ∨
          ∃ i, decode s.cfg w = .ok i ∧ exec i (s.fetched w) = .next t) := by
  cases hw : s.memRead4 s.pc with
  | none =>
    rw [step_of_fetch_none hr hw] at h
    exact .inl ⟨rfl, by injection h with h; exact h.symm⟩
  | some w =>
    refine .inr ⟨w, rfl, ?_⟩
    cases hd : decode s.cfg w with
    | error e =>
      rw [step_of_decode_error hr hw hd] at h
      exact .inl ⟨e, rfl, by injection h with h; exact h.symm⟩
    | ok i => exact .inr ⟨i, rfl, by simpa [step, hr, State.fetch, hw, hd] using h⟩

theorem valid_of_gpr_some {f : Specifier} {r : Gpr} (h : gpr f = some r) : Specifier.valid f = true := by
  rw [← gpr_isSome_iff_valid, h]; rfl

theorem not_valid_of_gpr_none {f : Specifier} (h : gpr f = none) : Specifier.valid f = false := by
  rw [← gpr_isSome_iff_valid, h]; rfl

/-- All that executing an instruction can do, in seven shapes: halt; write its destination; write SR (CMP); write PC (JUMP); write one
existing cell (STORE); take the fault of an invalid specifier; take the fault of a store outside memory. -/
theorem exec_cases {i : Instr} {s t : State} (h : exec i s = .next t) :
    (i = .halt ∧ t = (s.setPc (s.pc - 4#32)).setRun .halted) ∨
    (∃ d v, i.destination = some d ∧ i.wf = true ∧ t = s.writeGpr d v) ∨
    (∃ a b v, i = .cmp a b ∧ i.wf = true ∧ (v = 0#32 ∨ v = 1#32 ∨ v = 2#32) ∧ t = s.setSr v) ∨
    (∃ imm, i = .jump imm ∧ t = s.setPc (zext32 imm)) ∨
    (∃ reg imm v, i = .store reg imm ∧ i.wf = true ∧ imm.toNat < s.cfg.memSize ∧
      t = s.setMem (Memory.write s.mem imm.toNat v)) ∨
    (i.wf = false ∧ t = s.raiseFetched .invalidRegister none) ∨
    (∃ reg imm, i = .store reg imm ∧ i.wf = true ∧ s.cfg.memSize ≤ imm.toNat ∧
      t = s.raiseFetched .storeOutOfBounds (some imm.toNat)) := by
  cases i with
  | halt => exact .inl ⟨rfl, execHalt_cases h⟩
  | mv reg imm =>
    rcases execMv_cases h with ⟨d, hd, h⟩ | ⟨hd, h⟩
    · exact .inr (.inl ⟨d, _, hd, by simp [Instr.wf, Instr.usedSpecifiers, valid_of_gpr_some hd], h⟩)
    · exact .inr (.inr (.inr (.inr (.inr (.inl
        ⟨by simp [Instr.wf, Instr.usedSpecifiers, not_valid_of_gpr_none hd], h⟩)))))
  | add rd rs1 rs2 =>
    rcases execAdd_cases h with ⟨d, a, b, hd, ha, hb, h⟩ | ⟨hd, h⟩
    · exact .inr (.inl ⟨d, _, hd, by
        simp [Instr.wf, Instr.usedSpecifiers, valid_of_gpr_some hd, valid_of_gpr_some ha, valid_of_gpr_some hb], h⟩)
    · exact .inr (.inr (.inr (.inr (.inr (.inl ⟨by
        rcases hd with hd | hd | hd <;> simp [Instr.wf, Instr.usedSpecifiers, not_valid_of_gpr_none hd], h⟩)))))
  | sub rd rs1 rs2 =>
    rcases execSub_cases h with ⟨d, a, b, hd, ha, hb, h⟩ | ⟨hd, h⟩
    · exact .inr (.inl ⟨d, _, hd, by
        simp [Instr.wf, Instr.usedSpecifiers, valid_of_gpr_some hd, valid_of_gpr_some ha, valid_of_gpr_some hb], h⟩)
    · exact .inr (.inr (.inr (.inr (.inr (.inl ⟨by
        rcases hd with hd | hd | hd <;> simp [Instr.wf, Instr.usedSpecifiers, not_valid_of_gpr_none hd], h⟩)))))
  | cmp rs1 rs2 =>
    rcases execCmp_cases h with ⟨a, b, ha, hb, h⟩ | ⟨hd, h⟩
    · exact .inr (.inr (.inl ⟨rs1, rs2, _, rfl, by
        simp [Instr.wf, Instr.usedSpecifiers, valid_of_gpr_some ha, valid_of_gpr_some hb], compareStatus_cases _ _, h⟩))
    · exact .inr (.inr (.inr (.inr (.inr (.inl ⟨by
        rcases hd with hd | hd <;> simp [Instr.wf, Instr.usedSpecifiers, not_valid_of_gpr_none hd], h⟩)))))
  | jump imm => exact .inr (.inr (.inr (.inl ⟨imm, rfl, execJump_cases h⟩)))
  | load reg imm =>
    rcases execLoad_cases h with ⟨d, hd, h⟩ | ⟨hd, h⟩
    · exact .inr (.inl ⟨d, _, hd, by simp [Instr.wf, Instr.usedSpecifiers, valid_of_gpr_some hd], h⟩)
    · exact .inr (.inr (.inr (.inr (.inr (.inl
        ⟨by simp [Instr.wf, Instr.usedSpecifiers, not_valid_of_gpr_none hd], h⟩)))))
  | store reg imm =>
    rcases execStore_cases h with ⟨r, hr, hm, h⟩ | ⟨hd, h⟩ | ⟨r, hr, hm, h⟩
    · exact .inr (.inr (.inr (.inr (.inl ⟨reg, imm, _, rfl, by
        simp [Instr.wf, Instr.usedSpecifiers, valid_of_gpr_some hr], hm, h⟩))))
    · exact .inr (.inr (.inr (.inr (.inr (.inl
        ⟨by simp [Instr.wf, Instr.usedSpecifiers, not_valid_of_gpr_none hd], h⟩)))))
    · exact .inr (.inr (.inr (.inr (.inr (.inr ⟨reg, imm, rfl, by
        simp [Instr.wf, Instr.usedSpecifiers, valid_of_gpr_some hr], hm, h⟩)))))

end Sys2Proof.Machine
end

