-- ==== Sys2Proof/Tests/Slice0.lean ====
section
/-! SUPPORT. The model's own tests: decoding of words written out from the spec, refusals of ill-formed terms, one or two steps for each
instruction (expected results from 95_test_vectors.md), and one witness for each statement that has hypotheses. -/
namespace Sys2Proof.Tests
open Sys2Proof Sys2Proof.Machine

/-- The default opcode numbers and `n` bytes of memory (the convention of 95_test_vectors.md has 256). -/
def cfg (n : Nat) : Config := Config.withDefaultOpcodes n

/-- A fresh machine with the given bytes from address 0. -/
def machine (n : Nat) (bytes : List Byte) : State := State.fresh (cfg n) (Memory.ofImage 0 bytes)

/-- A fresh machine of 256 bytes with one word at address 0. -/
def withWord (w : Word) : State := machine 256 (bytesOfWord w)

/-- The next state, where there is one. -/
def answered : Host.Outcome State Fault Refusal → Option State
  | .next t => some t
  | _ => none

/-- One field or two of the next state. -/
def after {α : Type} (f : State → α) (s : State) : Option α := (answered (step s)).map f

/-! ## Decoding: words written out from 95_test_vectors.md section 2.1, every constructor -/

theorem test_decode_mv : decode (cfg 256) 0x302000A0#32 = .ok (.mv 1#5 5#16) := rfl
theorem test_decode_add : decode (cfg 256) 0x34011000#32 = .ok (.add 0#5 1#5 2#5) := rfl
theorem test_decode_sub : decode (cfg 256) 0x38642800#32 = .ok (.sub 3#5 4#5 5#5) := rfl
theorem test_decode_cmp : decode (cfg 256) 0x3C011000#32 = .ok (.cmp 1#5 2#5) := rfl
theorem test_decode_jump : decode (cfg 256) 0x40000200#32 = .ok (.jump 16#16) := rfl
theorem test_decode_load : decode (cfg 256) 0x44824680#32 = .ok (.load 4#5 0x1234#16) := rfl
theorem test_decode_store : decode (cfg 256) 0x48A01FE0#32 = .ok (.store 5#5 255#16) := rfl
theorem test_decode_halt : decode (cfg 256) 0x00000000#32 = .ok .halt := rfl

/-- The bytes of the source's one worked encoding, in both directions (V-ENC-1). -/
theorem test_bytes_of_mv_w1_5 :
    encodeBytes (cfg 256) (.mv 1#5 5#16) = [0x30#8, 0x20#8, 0x00#8, 0xA0#8] ∧
      decodeBytes (cfg 256) [0x30#8, 0x20#8, 0x00#8, 0xA0#8, 0x7F#8] = .ok (.mv 1#5 5#16, [0x7F#8]) := ⟨by decide, rfl⟩

/-- Ignored bits set: V-DEC-1 to V-DEC-4. -/
theorem test_decode_ignored_bits :
    decode (cfg 256) 0x302000BF#32 = .ok (.mv 1#5 5#16) ∧ decode (cfg 256) 0x340117FF#32 = .ok (.add 0#5 1#5 2#5) ∧
      decode (cfg 256) 0x3FE117FF#32 = .ok (.cmp 1#5 2#5) ∧ decode (cfg 256) 0x43E0021F#32 = .ok (.jump 16#16) :=
  ⟨rfl, rfl, rfl, rfl⟩

/-- Words that are no instruction: V-DEC-6 (opcode 0 but not zero), V-DEC-7, V-UNK-4, V-UNK-5; and too few bytes. -/
theorem test_decode_rejects_by_name :
    decode (cfg 256) 0x00000001#32 = .error (.unknownOpcode 0#6) ∧
      decode (cfg 256) 0xFC000000#32 = .error (.unknownOpcode 63#6) ∧
      decode (cfg 256) 0x4C000000#32 = .error (.unknownOpcode 19#6) ∧
      decode (cfg 256) 0x2FFFFFFF#32 = .error (.unknownOpcode 11#6) ∧
      decodeBytes (cfg 256) [0x30#8, 0x20#8, 0x00#8] = .error .tooFewBytes := ⟨rfl, rfl, rfl, rfl, rfl⟩

/-- R-format reserved bits are extracted and discarded (V-DEC-2). -/
theorem test_extract_reserved :
    extractFields (cfg 256) 0x340117FF#32 = .rFormat 13#6 0#5 1#5 2#5 31#5 63#6 := by decide

/-! ## Ill-formed terms are refused, one for each check -/

theorem test_wf_refuses_each_specifier :
    Instr.wf (.mv 6#5 0#16) = false ∧ Instr.wf (.load 6#5 0#16) = false ∧ Instr.wf (.store 31#5 0#16) = false ∧
      Instr.wf (.add 6#5 0#5 0#5) = false ∧ Instr.wf (.add 0#5 6#5 0#5) = false ∧ Instr.wf (.add 0#5 0#5 6#5) = false ∧
      Instr.wf (.sub 6#5 0#5 0#5) = false ∧ Instr.wf (.sub 0#5 6#5 0#5) = false ∧ Instr.wf (.sub 0#5 0#5 6#5) = false ∧
      Instr.wf (.cmp 6#5 0#5) = false ∧ Instr.wf (.cmp 0#5 6#5) = false := by decide

theorem test_wf_accepts_the_last_register :
    Instr.wf (.add 5#5 5#5 5#5) = true ∧ Instr.wf (.jump 0xFFFF#16) = true ∧ Instr.wf .halt = true := by decide

theorem test_config_refuses :
    ¬ (cfg 3).Wf ∧ ¬ (cfg 4294967297).Wf ∧ (cfg 4).Wf ∧ (cfg 4294967296).Wf ∧
      ¬ { cfg 256 with opAdd := 12#6 }.Wf ∧ ¬ { cfg 256 with opStore := 17#6 }.Wf := by decide

/-- Canonical words (rule R63): a reserved bit, an unused bit, CMP's `rd`, JUMP's `reg`, a register that does not exist. -/
theorem test_canonical_refuses :
    canonicalWord (cfg 256) 0x34011000#32 = true ∧ canonicalWord (cfg 256) 0x34011001#32 = false ∧
      canonicalWord (cfg 256) 0x34011040#32 = false ∧ canonicalWord (cfg 256) 0x302000A1#32 = false ∧
      canonicalWord (cfg 256) 0x3C211000#32 = false ∧ canonicalWord (cfg 256) 0x40200200#32 = false ∧
      canonicalWord (cfg 256) 0x30C000A0#32 = false ∧ canonicalWord (cfg 256) 0xFC000000#32 = false := by decide

theorem test_memory_wf_refuses :
    Memory.wf [(4, 1#8), (4, 2#8)] = false ∧ Memory.wf [(5, 1#8), (4, 2#8)] = false ∧ Memory.wf [(4, 0#8)] = false ∧
      Memory.wf [(4, 1#8), (5, 2#8)] = true ∧ Memory.within 5 [(5, 1#8)] = false := by decide

/-- Reset's memory has the canonical form, and writing 0x00 removes the entry. -/
theorem test_memory_canonical :
    Memory.wf State.reset.mem = true ∧ Memory.write [(4, 1#8), (9, 2#8)] 4 0#8 = [(9, 2#8)] ∧
      Memory.write [(4, 1#8), (9, 2#8)] 5 7#8 = [(4, 1#8), (5, 7#8), (9, 2#8)] := by decide

/-! ## Steps: expected results from 95_test_vectors.md -/

/-- V-MV-2. -/
theorem test_mv_replaces_the_whole_register :
    after (fun t => (t.readGpr .w5, t.pc)) ((withWord 0x30BFFFE0#32).writeGpr .w5 0xAAAAAAAA#32) =
      some (0x0000FFFF#32, 4#32) := by decide

/-- V-MV-4. -/
theorem test_mv_invalid_register :
    after State.run (withWord 0x30C000A0#32) =
      some (.faulted ⟨.decodeFault, .invalidRegister, 0#32, some 0x30C000A0#32, none⟩) := by decide

/-- V-ADD-3. -/
theorem test_add_source_is_destination_and_wraps :
    after (fun t => (t.readGpr .w0, t.sr)) ((withWord 0x34000000#32).writeGpr .w0 0x80000001#32) =
      some (2#32, 0#32) := by decide

/-- V-ADD-6. -/
theorem test_add_invalid_source_writes_nothing :
    after (fun t => (t.readGpr .w0, t.run)) ((withWord 0x34013000#32).writeGpr .w0 0x11#32) =
      some (0x11#32, .faulted ⟨.decodeFault, .invalidRegister, 0#32, some 0x34013000#32, none⟩) := by decide

/-- V-SUB-5. -/
theorem test_sub_first_minus_second :
    after (fun t => t.readGpr .w2) (((withWord 0x38410000#32).writeGpr .w0 10#32).writeGpr .w1 3#32) =
      some 0xFFFFFFF9#32 := by decide

/-- V-SUB-7. -/
theorem test_sub_invalid_source :
    after (fun t => (t.readGpr .w1, t.pc)) ((withWord 0x383F0000#32).writeGpr .w1 2#32) = some (2#32, 4#32) := by decide

/-- V-CMP-8. -/
theorem test_cmp_is_unsigned :
    after State.sr (((withWord 0x3C002800#32).writeGpr .w0 0x80000000#32).writeGpr .w5 0x7FFFFFFF#32) =
      some 2#32 := by decide

/-- V-CMP-7. -/
theorem test_cmp_invalid_source_keeps_sr :
    after (fun t => (t.sr, t.run)) ((withWord 0x3C014800#32).setSr 1#32) =
      some (1#32, .faulted ⟨.decodeFault, .invalidRegister, 0#32, some 0x3C014800#32, none⟩) := by decide

/-- V-JUMP-2. -/
theorem test_jump_ignores_reg :
    after (fun t => (t.pc, t.run)) (withWord 0x43E0021F#32) = some (0x10#32, .running) := by decide

/-- V-JUMP-5, its second step: PC is at 0xFD and IR holds the JUMP. -/
theorem test_jump_target_faults_at_the_next_fetch :
    after (fun t => (t.run, t.pc)) ((withWord 0x40001FA0#32).setPc 0xFD#32) =
      some (.faulted ⟨.memoryFault, .fetchOutOfBounds, 0xFD#32, none, some 0xFD⟩, 0xFD#32) := by decide

/-- V-LOAD-1: the address is not in memory and there is no fault. -/
theorem test_load_is_literal :
    after (fun t => (t.readGpr .w4, t.run)) (withWord 0x44824680#32) = some (0x1234#32, .running) := by decide

/-- V-LOAD-3. -/
theorem test_load_invalid_register :
    after State.run (withWord 0x45800020#32) =
      some (.faulted ⟨.decodeFault, .invalidRegister, 0#32, some 0x45800020#32, none⟩) := by decide

/-- V-ST-5: the instruction overwrites its own first byte and is not affected. -/
theorem test_store_over_itself :
    after (fun t => (t.mem, t.ir)) ((withWord 0x48200000#32).writeGpr .w1 0x1FF#32) =
      some ([(0, 0xFF#8), (1, 0x20#8)], 0x48200000#32) := by decide

/-- V-ST-4 and V-ST-2: the register check comes before the bounds check. -/
theorem test_store_priority :
    after State.run (withWord 0x48C02000#32) =
        some (.faulted ⟨.decodeFault, .invalidRegister, 0#32, some 0x48C02000#32, none⟩) ∧
      after State.run (withWord 0x48002000#32) =
        some (.faulted ⟨.memoryFault, .storeOutOfBounds, 0#32, some 0x48002000#32, some 0x100⟩) := by decide

/-- V-HALT-1. -/
theorem test_halt_at_once : answered (step (withWord 0#32)) = some { withWord 0#32 with run := .halted } := by decide

/-- V-FETCH-2: the last fetchable word; after a halt PC is the zero word's address and IR is 0. -/
theorem test_halt_rolls_pc_back :
    after (fun t => (t.pc, t.ir, t.run)) (((withWord 0#32).setPc 252#32).setIr 7#32) =
      some (252#32, 0#32, .halted) := by decide

/-- V-UNK-1. -/
theorem test_unknown_opcode :
    after (fun t => (t.run, t.pc, t.ir)) (withWord 1#32) =
      some (.faulted ⟨.decodeFault, .unknownOpcode, 0#32, some 1#32, none⟩, 4#32, 1#32) := by decide

/-- V-FETCH-3: a failed fetch changes neither PC nor IR. -/
theorem test_fetch_out_of_bounds :
    after (fun t => (t.run, t.pc, t.ir)) (((withWord 0#32).setPc 256#32).setIr 0x1234#32) =
      some (.faulted ⟨.memoryFault, .fetchOutOfBounds, 256#32, none, some 256⟩, 256#32, 0x1234#32) := by decide

/-- V-MIS-1: a misaligned fetch. -/
theorem test_misaligned_fetch :
    after (fun t => (t.readGpr .w1, t.pc)) ((machine 256 [0#8, 0x30#8, 0x20#8, 0#8, 0xA0#8]).setPc 1#32) =
      some (5#32, 5#32) := by decide

/-- PC wraps at 2^32, which only the largest memory can show (rule R17): the sentinel at the last word, and an MV there. -/
theorem test_pc_wraps_in_the_largest_memory :
    after State.pc (((machine 4294967296 []).setPc 0xFFFFFFFC#32)) = some 0xFFFFFFFC#32 ∧
      after State.pc { machine 4294967296 [] with pc := 0xFFFFFFFC#32, mem := [(0xFFFFFFFC, 0x30#8)] } = some 0#32 := by
  decide

/-- The table word placed at reset runs as the first instruction (V-ENC-1). -/
theorem test_placed_word_runs :
    after (fun t => (t.readGpr .w1, t.pc, t.ir)) (State.reset.withFetchWord 32 0x302000A0) =
      some (5#32, 4#32, 0x302000A0#32) := by decide

/-! ## Witnesses: for each statement with hypotheses, a state and operands that meet them all -/

/-- O1: an instruction with operands at their largest values; and, under a configuration that numbers ADD 0, a word that is not the
shared zero word and the one that is. -/
theorem test_witness_decode_of_encode :
    ((cfg 256).Wf ∧ encode (cfg 256) (.add 31#5 31#5 31#5) ≠ 0#32) ∧
      ({ cfg 256 with opAdd := 0#6 }.Wf ∧ encode { cfg 256 with opAdd := 0#6 } (.add 0#5 0#5 1#5) ≠ 0#32 ∧
        encode { cfg 256 with opAdd := 0#6 } (.add 0#5 0#5 0#5) = 0#32) := by decide

/-- O2: each clause. -/
theorem test_witness_field_extraction :
    (cfg 256).Wf ∧ (13#6 = (cfg 256).opAdd) ∧ (18#6 = (cfg 256).opStore) ∧
      opcodeField 0x340117FF#32 ∈ (cfg 256).opcodes := by decide

/-- O3, and the encoding clauses of O7 to O13: a non-zero word for each opcode, and the opcodes next to the assigned ones. -/
theorem test_witness_every_word :
    (cfg 256).Wf ∧ BitVec.extractLsb 31 26 0x33FFFFFF#32 = opMv ∧
      BitVec.extractLsb 31 26 0x34000000#32 = (cfg 256).opAdd ∧ BitVec.extractLsb 31 26 0x38000000#32 = (cfg 256).opSub ∧
      BitVec.extractLsb 31 26 0x3C000000#32 = (cfg 256).opCmp ∧ BitVec.extractLsb 31 26 0x40000000#32 = (cfg 256).opJump ∧
      BitVec.extractLsb 31 26 0x44000000#32 = (cfg 256).opLoad ∧ BitVec.extractLsb 31 26 0x4BFFFFFF#32 = (cfg 256).opStore ∧
      BitVec.extractLsb 31 26 0x4C000000#32 ∉ (cfg 256).opcodes ∧
      BitVec.extractLsb 31 26 0x2FFFFFFF#32 ∉ (cfg 256).opcodes := by decide

/-- O4: one pair of words for each clause. -/
theorem test_witness_ignored_bits :
    (opcodeField 0x340117FF#32 = (cfg 256).opAdd ∧ opcodeField 0x34011000#32 = (cfg 256).opAdd ∧
        0x340117FF#32 >>> 11 = 0x34011000#32 >>> 11) ∧
      (opcodeField 0x3FE117FF#32 = (cfg 256).opCmp ∧ opcodeField 0x3C011000#32 = (cfg 256).opCmp ∧
        BitVec.extractLsb 20 11 0x3FE117FF#32 = BitVec.extractLsb 20 11 0x3C011000#32) ∧
      (opcodeField 0x302000BF#32 = opMv ∧ opcodeField 0x302000A0#32 = opMv ∧ 0x302000BF#32 >>> 5 = 0x302000A0#32 >>> 5) ∧
      (opcodeField 0x43E0021F#32 = (cfg 256).opJump ∧ opcodeField 0x40000200#32 = (cfg 256).opJump ∧
        BitVec.extractLsb 20 5 0x43E0021F#32 = BitVec.extractLsb 20 5 0x40000200#32) := by decide

/-- O7 to O11: the last specifier that names a register and the first that does not. -/
theorem test_witness_register_clauses :
    gpr 5#5 = some .w5 ∧ gpr 0#5 = some .w0 ∧ gpr 1#5 = some .w1 ∧ 5 < (6#5 : Specifier).toNat ∧
      ¬ 5 < (5#5 : Specifier).toNat := by decide

/-- O12: a Running machine and the least target whose four bytes are not all in its memory. -/
theorem test_witness_jump_out_of_bounds :
    (machine 256 []).run = .running ∧ (machine 256 []).cfg.memSize < (253#16 : Imm).toNat + 4 := by decide

/-- O13: the last address that exists, the first that does not, and a specifier for each clause. -/
theorem test_witness_store_clauses :
    (gpr 5#5 = some .w5 ∧ (zext32 255#16).toNat < (machine 256 []).cfg.memSize) ∧ 5 < (6#5 : Specifier).toNat ∧
      ((5#5 : Specifier).toNat ≤ 5 ∧ (machine 256 []).cfg.memSize ≤ (256#16 : Imm).toNat) := by decide

/-- O15: destination and second source different, and the same. -/
theorem test_witness_sub_undoes_add :
    (gpr 0#5 = some .w0 ∧ gpr 1#5 = some .w1 ∧ gpr 2#5 = some .w2 ∧ Gpr.w0 ≠ Gpr.w2) ∧
      (gpr 2#5 = some .w2 ∧ gpr 1#5 = some .w1) := by decide

/-- O16: the last address at which four bytes exist. -/
theorem test_witness_fetch_bytes : (252#32 : Word).toNat + 4 ≤ (machine 256 []).cfg.memSize := by decide

/-- O40: a write that is answered, at the last cell. -/
theorem test_witness_bounds : ∃ t, (machine 256 []).memWrite1 255#32 1#8 = some t := ⟨_, rfl⟩

/-- O17: the STORE of P3 (95_test_vectors.md) into the word at 12, which covers the cell 15. -/
theorem test_witness_store_then_fetch :
    (withWord 0x480001E0#32).AboutToRun (.store 0#5 15#16) ∧ gpr 0#5 = some .w0 ∧
      (15#16 : Imm).toNat < (withWord 0x480001E0#32).cfg.memSize ∧
      (withWord 0x480001E0#32).memRead4 12#32 = some 0#32 :=
  ⟨⟨rfl, 0x480001E0#32, by decide, rfl⟩, by decide, by decide, by decide⟩

/-- O18. -/
theorem test_witness_step_runs :
    (withWord 0x302000A0#32).run = .running ∧
      (withWord 0x302000A0#32).memRead4 (withWord 0x302000A0#32).pc = some 0x302000A0#32 ∧
      decode (withWord 0x302000A0#32).cfg 0x302000A0#32 = .ok (.mv 1#5 5#16) := ⟨rfl, by decide, rfl⟩

/-- O19 and O39. -/
theorem test_witness_config : (withWord 0x302000A0#32).cfg.Wf := by decide

/-- O21 and O24: an ended machine, one step from a running one. -/
theorem test_witness_ended :
    ∃ t, runN 1 (withWord 0#32) = .next t ∧ t.run ≠ .running ∧ runToHalt 1 (withWord 0#32) = some t :=
  ⟨_, rfl, by decide, rfl⟩

/-- O22. -/
theorem test_witness_halt :
    (withWord 0#32).run = .running ∧ (withWord 0#32).memRead4 (withWord 0#32).pc = some 0#32 ∧
      ∃ t, step (withWord 0#32) = .next t ∧ t.run = .halted := ⟨rfl, by decide, _, rfl, rfl⟩

/-- O23: no word, the zero word, a JUMP, and another instruction. -/
theorem test_witness_next_pc :
    ((machine 256 []).setPc 253#32).memRead4 253#32 = none ∧ (withWord 0#32).memRead4 0#32 = some 0#32 ∧
      decode (cfg 256) 0x40000200#32 = .ok (.jump 16#16) ∧
      (withWord 0x302000A0#32).memRead4 0#32 = some 0x302000A0#32 ∧
      ∀ imm, decode (cfg 256) 0x302000A0#32 ≠ .ok (.jump imm) :=
  ⟨by decide, by decide, rfl, by decide, fun imm h => by cases (show Except.ok (Instr.mv 1#5 5#16) = _ from h)⟩

/-- O25 and O26: the four faults, each from a Running machine. -/
theorem test_witness_faults :
    (((machine 256 []).setPc 253#32).run = .running ∧ ((machine 256 []).setPc 253#32).cfg.memSize < 253 + 4) ∧
      ((withWord 1#32).memRead4 (withWord 1#32).pc = some 1#32 ∧ opcodeField 1#32 ∉ (withWord 1#32).cfg.opcodes) ∧
      (decode (cfg 256) 0x30C000A0#32 = .ok (.mv 6#5 5#16) ∧ 6#5 ∈ Instr.usedSpecifiers (.mv 6#5 5#16)) ∧
      (decode (cfg 256) 0x48002000#32 = .ok (.store 0#5 0x100#16) ∧ 256 ≤ (0x100#16 : Imm).toNat) :=
  ⟨by decide, by decide, ⟨rfl, by decide⟩, ⟨rfl, by decide⟩⟩

/-- O26: a step of a Running machine. -/
theorem test_witness_faulting_step :
    ∃ t, (withWord 1#32).run = .running ∧ step (withWord 1#32) = .next t ∧ t.run ≠ .running := ⟨_, rfl, rfl, by decide⟩

/-- O27: a step that changes SR. -/
theorem test_witness_sr_changes :
    ∃ t, step ((withWord 0x3C011000#32).writeGpr .w1 5#32) = .next t ∧
      t.sr ≠ ((withWord 0x3C011000#32).writeGpr .w1 5#32).sr := ⟨_, rfl, by decide⟩

/-- O28 and O35: a step that changes a byte of a canonical memory. -/
theorem test_witness_memory_changes :
    Memory.wf ((withWord 0x48001FE0#32).writeGpr .w0 0xAB#32).mem = true ∧
      ∃ t, step ((withWord 0x48001FE0#32).writeGpr .w0 0xAB#32) = .next t ∧
        Memory.read t.mem 255 ≠ Memory.read ((withWord 0x48001FE0#32).writeGpr .w0 0xAB#32).mem 255 :=
  ⟨by decide, _, rfl, by decide⟩

/-- O29: a step that changes a general register. -/
theorem test_witness_register_changes :
    ∃ t, step (withWord 0x302000A0#32) = .next t ∧ t.readGpr .w1 ≠ (withWord 0x302000A0#32).readGpr .w1 :=
  ⟨_, rfl, by decide⟩

/-- O30: two states that differ in all four registers nothing reads. -/
theorem test_witness_unread_registers :
    AgreeOnWhatIsRead (withWord 0x302000A0#32) { withWord 0x302000A0#32 with sr := 2#32, sp := 1#32, mdr := 3#32, mar := 4#32 } :=
  ⟨rfl, rfl, rfl, rfl, rfl, rfl⟩

/-- O31: the two sizes of rule R45, and a STORE that faults in the first. -/
theorem test_witness_large_memory :
    (machine 65536 []).run = .running ∧ 65536 ≤ (machine 65536 []).cfg.memSize ∧ 65539 ≤ (machine 65539 []).cfg.memSize ∧
      ∃ t r, exec (.store 6#5 0xFFFF#16) (machine 65536 []) = .next t ∧ t.run = .faulted r :=
  ⟨rfl, by decide, by decide, _, _, rfl, rfl⟩

/-- O32: a lawful state (a machine with an MV at 0) and a step of it. -/
theorem test_witness_lawful_step :
    (withWord 0x302000A0#32).Inv ∧ ∃ t, step (withWord 0x302000A0#32) = .next t :=
  ⟨⟨by decide, by decide, by decide, (fun h => by cases h), (fun _ h => by cases h), by decide, by decide⟩, _, rfl⟩

/-- O34: a machine created with an image, and a run of it. -/
theorem test_witness_reachable :
    ∃ s t, State.create (cfg 256) [0x30#8, 0x20#8, 0x00#8, 0xA0#8] = .next s ∧ runN 1 s = .next t := ⟨_, _, rfl, rfl⟩

/-- O36 and O37: an image that fills memory and one a byte longer; an address in the image and one after it. -/
theorem test_witness_images :
    (cfg 4).Wf ∧ ([1#8, 2#8, 3#8, 4#8] : List Byte).length ≤ (cfg 4).memSize ∧
      (cfg 4).memSize < ([1#8, 2#8, 3#8, 4#8, 5#8] : List Byte).length ∧
      (3 < ([1#8, 2#8, 3#8, 4#8] : List Byte).length) ∧ (([1#8, 2#8, 3#8] : List Byte).length ≤ 3 ∧ 3 < (cfg 4).memSize) := by
  decide

/-- O39: a `PC` that can be fetched from, one that cannot, and a word that decodes. -/
theorem test_witness_placed_word :
    ((machine 256 []).setPc 252#32).pc.toNat + 4 ≤ 256 ∧ ¬ ((machine 256 []).setPc 253#32).pc.toNat + 4 ≤ 256 ∧
      decode (machine 256 []).cfg 0x302000A0#32 = .ok (.mv 1#5 5#16) := ⟨by decide, by decide, rfl⟩

/-! ## The boundary -/

/-- Reset with parameters that break rule R4, and with an image too long, yields no machine; inspection outside memory is refused. -/
theorem test_no_machine :
    State.create (cfg 3) [] = .refused .badConfiguration ∧
      State.create (cfg 4) [1#8, 2#8, 3#8, 4#8, 5#8] = .refused (.imageTooLong 5 4) ∧
      (machine 256 [9#8]).readMemory 0 = .ok 9#8 ∧ (machine 256 []).readMemory 256 = .error (.noSuchAddress 256) :=
  ⟨rfl, rfl, rfl, rfl⟩

/-- The second rendering of a step agrees on the vectors V-ADD-3 and V-ST-2. -/
theorem test_reference_step_agrees :
    answered (step ((withWord 0x34000000#32).writeGpr .w0 0x80000001#32)) =
        some (referenceStep ((withWord 0x34000000#32).writeGpr .w0 0x80000001#32)) ∧
      answered (step (withWord 0x48002000#32)) = some (referenceStep (withWord 0x48002000#32)) := by decide

end Sys2Proof.Tests
end

section
/-! PROOFS. Register specifiers and the machine that reset creates (10_state.md rules R12, R13, R26). -/
namespace Sys2Proof.Machine

/-! ## Specifiers -/

/-- The number of a register, as a specifier, names that register (rule R12). -/
theorem gpr_ofNat_number (r : Gpr) : gpr (BitVec.ofNat 5 r.number) = some r :=
  (gpr_eq_some_iff _ r).2 (by cases r <;> rfl)

/-! ## A fresh machine -/

@[simp] theorem GprFile.read_zero (r : Gpr) : GprFile.zero.read r = 0#32 := by
  cases r <;> rfl

@[simp] theorem State.readRegister_fresh (c : Config) (m : Memory) (r : RegName) :
    (State.fresh c m).readRegister r = 0#32 := by
  cases r with
  | gpr r => exact GprFile.read_zero r
  | pc | sp | ir | sr | mdr | mar => rfl

@[simp] theorem State.readStatus_fresh (c : Config) (m : Memory) : (State.fresh c m).readStatus = .running := rfl

/-- Every address below `MEM_SIZE` can be inspected (rule R99). -/
theorem State.readMemory_of_lt {s : State} {a : Nat} (h : a < s.cfg.memSize) :
    s.readMemory a = .ok (Memory.read s.mem a) :=
  if_pos h

/-- A fresh machine with an image at address 0 reads the image, and 0x00 past its end (rules R26, R131). -/
theorem State.readMemory_fresh_ofImage {c : Config} {a : Nat} (image : List Byte) (h : a < c.memSize) :
    (State.fresh c (Memory.ofImage 0 image)).readMemory a = .ok (image.getD a 0#8) := by
  have hread := Memory.read_ofImage 0 a image
  rw [Nat.zero_add] at hread
  exact (State.readMemory_of_lt h).trans (congrArg Except.ok hread)

/-- Reset with lawful parameters and an image that fits yields the fresh machine (rules R130, R132). -/
theorem State.create_of_fits {c : Config} {image : List Byte} (hc : c.Wf) (hl : image.length ≤ c.memSize) :
    State.create c image = .next (State.fresh c (Memory.ofImage 0 image)) := by
  unfold State.create
  rw [if_pos hc, if_neg (Nat.not_lt.2 hl)]

end Sys2Proof.Machine

namespace Sys2Proof
open Machine

/-- Settles O36: creation is the fresh machine over the image's memory, read through the laws of that memory. -/
theorem creationLoadsTheImage : Obligations.CreationLoadsTheImage := by
  intro c image hc hl
  refine ⟨_, State.create_of_fits hc hl, State.readRegister_fresh c _, State.readStatus_fresh c _,
    fun a ha => ?inImage, fun a hge ha => ?pastImage⟩
  case inImage => exact State.readMemory_fresh_ofImage image (Nat.lt_of_lt_of_le ha hl)
  case pastImage => rw [State.readMemory_fresh_ofImage image ha, List.getD_eq_default _ _ hge]

/-- Settles O6, from the two laws of `gpr`: the register of a number, and when there is none. -/
theorem specifiersNameTheirRegisters : Obligations.SpecifiersNameTheirRegisters :=
  ⟨gpr_ofNat_number .w0, gpr_ofNat_number .w1, gpr_ofNat_number .w2, gpr_ofNat_number .w3, gpr_ofNat_number .w4,
    gpr_ofNat_number .w5, gpr_eq_none_iff⟩

end Sys2Proof
end

section
/-! PROOFS. Words in memory and in the encoder's output are big-endian (20_memory.md rules R32, R33). -/
namespace Sys2Proof

/-! ## The byte lanes of a word -/

/-- The bytes of a word at rising addresses are its lanes from the most significant down (rule R32). -/
theorem bytesOfWord_eq_extractLsb (w : Word) :
    bytesOfWord w =
      [BitVec.extractLsb 31 24 w, BitVec.extractLsb 23 16 w, BitVec.extractLsb 15 8 w, BitVec.extractLsb 7 0 w] :=
  rfl

/-- Each lane of a word put together from four bytes is the byte that was put there. -/
theorem extractLsb_wordOfBytes (b0 b1 b2 b3 : Byte) :
    BitVec.extractLsb 31 24 (wordOfBytes b0 b1 b2 b3) = b0 ∧ BitVec.extractLsb 23 16 (wordOfBytes b0 b1 b2 b3) = b1 ∧
      BitVec.extractLsb 15 8 (wordOfBytes b0 b1 b2 b3) = b2 ∧ BitVec.extractLsb 7 0 (wordOfBytes b0 b1 b2 b3) = b3 :=
  ⟨byteOfWord_wordOfBytes_0 .., byteOfWord_wordOfBytes_1 .., byteOfWord_wordOfBytes_2 .., byteOfWord_wordOfBytes_3 ..⟩

end Sys2Proof

namespace Sys2Proof.Machine

/-! ## Reading a word -/

/-- A read wholly inside memory answers the word of the four bytes there, at any alignment (rule R33). -/
theorem State.memRead4_of_le {s : State} {addr : Word} (h : addr.toNat + 4 ≤ s.cfg.memSize) :
    s.memRead4 addr =
      some (wordOfBytes (Memory.read s.mem addr.toNat) (Memory.read s.mem (addr.toNat + 1))
        (Memory.read s.mem (addr.toNat + 2)) (Memory.read s.mem (addr.toNat + 3))) :=
  (State.memRead4_eq_some_iff s addr _).2 ⟨h, rfl⟩

end Sys2Proof.Machine

namespace Sys2Proof
open Machine

/-- Settles O16: an answered read is `wordOfBytes` of the four cells, whose lanes and number are known; the encoder emits
the lanes in the same order. -/
theorem fetchReadsFourBytesBigEndian : Obligations.FetchReadsFourBytesBigEndian := by
  refine ⟨fun s addr hin => ?read, fun c i => bytesOfWord_eq_extractLsb (encode c i)⟩
  case read =>
    obtain ⟨lane0, lane1, lane2, lane3⟩ := extractLsb_wordOfBytes (Memory.read s.mem addr.toNat)
      (Memory.read s.mem (addr.toNat + 1)) (Memory.read s.mem (addr.toNat + 2))
      (Memory.read s.mem (addr.toNat + 3))
    exact ⟨_, State.memRead4_of_le hin, lane0, lane1, lane2, lane3, wordOfBytes_toNat ..⟩

end Sys2Proof
end

section
/-! PROOFS. Decoding and packing are inverse, and the decoder's answer for each opcode (30_encoding.md rules R55, R56, R59 to R61,
R64, R65). -/
namespace Sys2Proof

variable {c : Config} {op : Opcode} {v w : Word}

/-! ## The format an opcode selects (rule R51) -/

theorem isROpcode_eq_true_iff : isROpcode c op = true ↔ op = c.opAdd ∨ op = c.opSub ∨ op = c.opCmp := by
  simp only [isROpcode, Bool.or_eq_true, beq_iff_eq, or_assoc]

theorem isROpcode_eq_false_of_iFormat (hd : c.opcodes.Nodup)
    (h : op = opMv ∨ op = c.opJump ∨ op = c.opLoad ∨ op = c.opStore) : isROpcode c op = false := by
  obtain ⟨⟨mvAdd, mvSub, mvCmp, -⟩, ⟨-, -, addJump, addLoad, addStore⟩, ⟨-, subJump, subLoad, subStore⟩,
    ⟨cmpJump, cmpLoad, cmpStore⟩, -⟩ := Config.opcodes_distinct hd
  rw [Bool.eq_false_iff, Ne, isROpcode_eq_true_iff, not_or, not_or]
  rcases h with rfl | rfl | rfl | rfl
  · exact ⟨mvAdd, mvSub, mvCmp⟩
  · exact ⟨addJump.symm, subJump.symm, cmpJump.symm⟩
  · exact ⟨addLoad.symm, subLoad.symm, cmpLoad.symm⟩
  · exact ⟨addStore.symm, subStore.symm, cmpStore.symm⟩

theorem extractFields_of_rFormat (h : isROpcode c (opcodeField w) = true) :
    extractFields c w = .rFormat (opcodeField w) (firstSpecifier w) (rs1Field w) (rs2Field w) (functHiField w)
      (functLoField w) :=
  if_pos h

theorem extractFields_of_iFormat (h : isROpcode c (opcodeField w) = false) :
    extractFields c w = .iFormat (opcodeField w) (firstSpecifier w) (immField w) :=
  if_neg (Bool.eq_false_iff.1 h)

/-! ## Packing the fields of a word (rules R64, R65) -/

/-- The four fields cover bits 31:11, so packing them clears the eleven bits below (rule R52). -/
theorem encodeR_fields (w : Word) :
    encodeR (opcodeField w) (firstSpecifier w) (rs1Field w) (rs2Field w) = w &&& 0xFFFFF800#32 := by
  ext i h; simp [encodeR, opcodeField, firstSpecifier, rs1Field, rs2Field]; interval_cases i <;> simp

/-- The three fields cover bits 31:5, so packing them clears the five bits below (rule R54). -/
theorem encodeI_fields (w : Word) :
    encodeI (opcodeField w) (firstSpecifier w) (immField w) = w &&& 0xFFFFFFE0#32 := by
  ext i h; simp [encodeI, opcodeField, firstSpecifier, immField]; interval_cases i <;> simp

/-- Bits 10:0 of a packed R word, the two `funct` fields together, are 0 (rule R52). -/
theorem reserved_encodeR (op : Opcode) (rd a b : Specifier) : BitVec.extractLsb 10 0 (encodeR op rd a b) = 0#11 := by
  ext i h; simp [encodeR]; interval_cases i <;> simp

/-! ## What the decoder answers for each opcode (rules R55, R56) -/

theorem decode_of_rFormat (hw : w ≠ 0#32) (h : isROpcode c (opcodeField w) = true) :
    decode c w = decodeR c (opcodeField w) (firstSpecifier w) (rs1Field w) (rs2Field w) := by
  rw [decode, if_neg hw, extractFields_of_rFormat h]

theorem decode_of_iFormat (hw : w ≠ 0#32) (h : isROpcode c (opcodeField w) = false) :
    decode c w = decodeI c (opcodeField w) (firstSpecifier w) (immField w) := by
  rw [decode, if_neg hw, extractFields_of_iFormat h]

theorem decode_of_opAdd (hw : w ≠ 0#32) (h : opcodeField w = c.opAdd) :
    decode c w = .ok (.add (firstSpecifier w) (rs1Field w) (rs2Field w)) := by
  rw [decode_of_rFormat hw (isROpcode_eq_true_iff.2 (.inl h)), decodeR, if_pos h]

theorem decode_of_opSub (hd : c.opcodes.Nodup) (hw : w ≠ 0#32) (h : opcodeField w = c.opSub) :
    decode c w = .ok (.sub (firstSpecifier w) (rs1Field w) (rs2Field w)) := by
  obtain ⟨-, ⟨addSub, -⟩, -⟩ := Config.opcodes_distinct hd
  rw [decode_of_rFormat hw (isROpcode_eq_true_iff.2 (.inr (.inl h))), h, decodeR, if_neg addSub.symm, if_pos rfl]

theorem decode_of_opCmp (hd : c.opcodes.Nodup) (hw : w ≠ 0#32) (h : opcodeField w = c.opCmp) :
    decode c w = .ok (.cmp (rs1Field w) (rs2Field w)) := by
  obtain ⟨-, ⟨-, addCmp, -⟩, ⟨subCmp, -⟩, -⟩ := Config.opcodes_distinct hd
  rw [decode_of_rFormat hw (isROpcode_eq_true_iff.2 (.inr (.inr h))), h, decodeR, if_neg addCmp.symm,
    if_neg subCmp.symm, if_pos rfl]

theorem decode_of_opMv (hd : c.opcodes.Nodup) (hw : w ≠ 0#32) (h : opcodeField w = opMv) :
    decode c w = .ok (.mv (firstSpecifier w) (immField w)) := by
  rw [decode_of_iFormat hw (isROpcode_eq_false_of_iFormat hd (.inl h)), decodeI, if_pos h]

theorem decode_of_opJump (hd : c.opcodes.Nodup) (hw : w ≠ 0#32) (h : opcodeField w = c.opJump) :
    decode c w = .ok (.jump (immField w)) := by
  obtain ⟨⟨-, -, -, mvJump, -⟩, -⟩ := Config.opcodes_distinct hd
  rw [decode_of_iFormat hw (isROpcode_eq_false_of_iFormat hd (.inr (.inl h))), h, decodeI, if_neg mvJump.symm,
    if_pos rfl]

theorem decode_of_opLoad (hd : c.opcodes.Nodup) (hw : w ≠ 0#32) (h : opcodeField w = c.opLoad) :
    decode c w = .ok (.load (firstSpecifier w) (immField w)) := by
  obtain ⟨⟨-, -, -, -, mvLoad, -⟩, -, -, -, ⟨jumpLoad, -⟩, -⟩ := Config.opcodes_distinct hd
  rw [decode_of_iFormat hw (isROpcode_eq_false_of_iFormat hd (.inr (.inr (.inl h)))), h, decodeI, if_neg mvLoad.symm,
    if_neg jumpLoad.symm, if_pos rfl]

theorem decode_of_opStore (hd : c.opcodes.Nodup) (hw : w ≠ 0#32) (h : opcodeField w = c.opStore) :
    decode c w = .ok (.store (firstSpecifier w) (immField w)) := by
  obtain ⟨⟨-, -, -, -, -, mvStore⟩, -, -, -, ⟨-, jumpStore⟩, loadStore⟩ := Config.opcodes_distinct hd
  rw [decode_of_iFormat hw (isROpcode_eq_false_of_iFormat hd (.inr (.inr (.inr h)))), h, decodeI, if_neg mvStore.symm,
    if_neg jumpStore.symm, if_neg loadStore.symm, if_pos rfl]

/-! ## Decode after encode -/

theorem Config.withDefaultOpcodes_nodup (n : Nat) : (Config.withDefaultOpcodes n).opcodes.Nodup :=
  (by decide : (Config.withDefaultOpcodes 0).opcodes.Nodup)

theorem Config.zero_not_mem_withDefaultOpcodes (n : Nat) : 0#6 ∉ (Config.withDefaultOpcodes n).opcodes :=
  (by decide : 0#6 ∉ (Config.withDefaultOpcodes 0).opcodes)

/-- The encoder's word carries an assigned opcode; HALT's word is the zero word, which has none of its own (rule R59). -/
theorem opcodeField_encode_mem {i : Instr} (hi : i ≠ .halt) : opcodeField (encode c i) ∈ c.opcodes := by
  cases i with
  | halt => exact absurd rfl hi
  | mv | add | sub | cmp | jump | load | store => simp [encode, Config.opcodes]

/-- Where no opcode is numbered 0, no instruction shares HALT's word. -/
theorem eq_halt_of_encode_eq_zero (h0 : 0#6 ∉ c.opcodes) {i : Instr} (he : encode c i = 0#32) : i = .halt := by
  by_contra hi
  have hmem : opcodeField (encode c i) ∈ c.opcodes := opcodeField_encode_mem hi
  rw [he] at hmem
  exact h0 hmem

/-- Only the opcodes' distinctness matters: the memory size plays no part in decoding. -/
theorem decode_encode (hd : c.opcodes.Nodup) {i : Instr} (h : encode c i = 0#32 → i = .halt) :
    decode c (encode c i) = .ok i := by
  cases i with
  | halt => rfl
  | mv reg imm => rw [decode_of_opMv hd (mt h nofun) (opcodeField_encodeI ..)]; simp [encode]
  | add rd rs1 rs2 => rw [decode_of_opAdd (mt h nofun) (opcodeField_encodeR ..)]; simp [encode]
  | sub rd rs1 rs2 => rw [decode_of_opSub hd (mt h nofun) (opcodeField_encodeR ..)]; simp [encode]
  | cmp rs1 rs2 => rw [decode_of_opCmp hd (mt h nofun) (opcodeField_encodeR ..)]; simp [encode]
  | jump imm => rw [decode_of_opJump hd (mt h nofun) (opcodeField_encodeI ..)]; simp [encode]
  | load reg imm => rw [decode_of_opLoad hd (mt h nofun) (opcodeField_encodeI ..)]; simp [encode]
  | store reg imm => rw [decode_of_opStore hd (mt h nofun) (opcodeField_encodeI ..)]; simp [encode]

theorem decodeBytes_encodeBytes {i : Instr} (rest : List Byte) (h : decode c (encode c i) = .ok i) :
    decodeBytes c (encodeBytes c i ++ rest) = .ok (i, rest) := by
  rw [encodeBytes, decodeBytes_bytesOfWord, h]

/-! ## Fields of words that agree on a range of bits (rule R61) -/

theorem extractLsb'_ushiftRight (w : Word) (k start len : Nat) :
    (w >>> k).extractLsb' start len = w.extractLsb' (k + start) len := by
  ext i h; simp [Nat.add_assoc]

theorem extractLsb'_extractLsb' (w : Word) {k n start len : Nat} (hin : start + len ≤ n) :
    (w.extractLsb' k n).extractLsb' start len = w.extractLsb' (k + start) len := by
  ext i h
  have hi : start + i < n := by omega
  simp [hi, Nat.add_assoc]

/-- A field that lies above the bits shifted out is the same in words that agree after the shift. -/
theorem extractLsb'_eq_of_ushiftRight_eq {k : Nat} (h : v >>> k = w >>> k) (start len : Nat) :
    v.extractLsb' (k + start) len = w.extractLsb' (k + start) len := by
  rw [← extractLsb'_ushiftRight, h, extractLsb'_ushiftRight]

/-- A field inside a range of bits is the same in words that agree on the range. -/
theorem extractLsb'_eq_of_extractLsb'_eq {k n start len : Nat} (h : v.extractLsb' k n = w.extractLsb' k n)
    (hin : start + len ≤ n) : v.extractLsb' (k + start) len = w.extractLsb' (k + start) len := by
  rw [← extractLsb'_extractLsb' v hin, h, extractLsb'_extractLsb' w hin]

end Sys2Proof

namespace Sys2Proof

/-! ## The statements -/

/-- Settles O1: the round trip on words carries over to bytes, and the default numbers share no word with HALT. -/
theorem decodeOfEncodeGivesTheInstruction : Obligations.DecodeOfEncodeGivesTheInstruction := by
  refine ⟨fun c i rest hc hshared => ?anyConfig, fun n i rest => ?defaults⟩
  case anyConfig =>
    obtain ⟨-, -, hd⟩ := hc
    have hword : decode c (encode c i) = .ok i := decode_encode hd hshared
    exact ⟨hword, decodeBytes_encodeBytes rest hword⟩
  case defaults =>
    have hword : decode (Config.withDefaultOpcodes n) (encode (Config.withDefaultOpcodes n) i) = .ok i :=
      decode_encode (Config.withDefaultOpcodes_nodup n)
        (eq_halt_of_encode_eq_zero (Config.zero_not_mem_withDefaultOpcodes n))
    exact ⟨hword, decodeBytes_encodeBytes rest hword⟩

/-- Settles O2: the format follows from the opcode, and each field is read back from the packed word. -/
theorem fieldExtractionInvertsPacking : Obligations.FieldExtractionInvertsPacking := by
  refine ⟨fun c op rd rs1 rs2 _ hop => ?packR, fun c op reg imm hc hop => ?packI, fun c w _ _ => ?repack⟩
  case packR =>
    have hR : isROpcode c (opcodeField (encodeR op rd rs1 rs2)) = true := by
      rwa [opcodeField_encodeR, isROpcode_eq_true_iff]
    simp [extractFields_of_rFormat hR]
  case packI =>
    obtain ⟨-, -, hd⟩ := hc
    have hI : isROpcode c (opcodeField (encodeI op reg imm)) = false := by
      rw [opcodeField_encodeI]; exact isROpcode_eq_false_of_iFormat hd hop
    simp [extractFields_of_iFormat hI]
  case repack =>
    cases h : isROpcode c (opcodeField w) with
    | true => rw [extractFields_of_rFormat h]; exact encodeR_fields w
    | false => rw [extractFields_of_iFormat h]; exact encodeI_fields w

/-- Settles O4: the decoder's answer for an opcode names only the fields the instruction uses, and these lie in the bits on which
the two words agree. -/
theorem ignoredBitsDoNotChangeTheInstruction : Obligations.IgnoredBitsDoNotChangeTheInstruction := by
  refine ⟨fun c v w hc hv hw hop => ?decoder, fun c a b d imm => ?encoder⟩
  case decoder =>
    obtain ⟨-, -, hd⟩ := hc
    refine ⟨fun hR hbits => ?addSub, fun hCmp hbits => ?cmp, fun hI hbits => ?mvLoadStore, fun hJump hbits => ?jump⟩
    case addSub =>
      have hrd : firstSpecifier v = firstSpecifier w := extractLsb'_eq_of_ushiftRight_eq hbits 10 5
      have hrs1 : rs1Field v = rs1Field w := extractLsb'_eq_of_ushiftRight_eq hbits 5 5
      have hrs2 : rs2Field v = rs2Field w := extractLsb'_eq_of_ushiftRight_eq hbits 0 5
      rcases hR with h | h
      · rw [decode_of_opAdd hv (hop.trans h), decode_of_opAdd hw h, hrd, hrs1, hrs2]
      · rw [decode_of_opSub hd hv (hop.trans h), decode_of_opSub hd hw h, hrd, hrs1, hrs2]
    case cmp =>
      have hrs1 : rs1Field v = rs1Field w := extractLsb'_eq_of_extractLsb'_eq (start := 5) (len := 5) hbits (by decide)
      have hrs2 : rs2Field v = rs2Field w := extractLsb'_eq_of_extractLsb'_eq (start := 0) (len := 5) hbits (by decide)
      rw [decode_of_opCmp hd hv (hop.trans hCmp), decode_of_opCmp hd hw hCmp, hrs1, hrs2]
    case mvLoadStore =>
      have hreg : firstSpecifier v = firstSpecifier w := extractLsb'_eq_of_ushiftRight_eq hbits 16 5
      have himm : immField v = immField w := extractLsb'_eq_of_ushiftRight_eq hbits 0 16
      rcases hI with h | h | h
      · rw [decode_of_opMv hd hv (hop.trans h), decode_of_opMv hd hw h, hreg, himm]
      · rw [decode_of_opLoad hd hv (hop.trans h), decode_of_opLoad hd hw h, hreg, himm]
      · rw [decode_of_opStore hd hv (hop.trans h), decode_of_opStore hd hw h, hreg, himm]
    case jump =>
      have himm : immField v = immField w := hbits
      rw [decode_of_opJump hd hv (hop.trans hJump), decode_of_opJump hd hw hJump, himm]
  case encoder =>
    exact ⟨reserved_encodeR .., reserved_encodeR .., reserved_encodeR .., firstSpecifier_encodeR ..,
      unusedField_encodeI .., unusedField_encodeI .., unusedField_encodeI .., unusedField_encodeI ..,
      firstSpecifier_encodeI ..⟩

end Sys2Proof
end

section
/-! PROOFS. MV, ADD, SUB and CMP (40_alu_mv_add_sub_cmp.md rules R70 to R75), with the execute phase's answer for every
instruction that uses a specifier of no register. -/
namespace Sys2Proof

/-! ## Instructions that name no register (10_state.md rule R13) -/

theorem Specifier.valid_eq_false_iff (f : Specifier) : Specifier.valid f = false ↔ 5 < f.toNat := by
  rw [Specifier.valid, decide_eq_false_iff_not, Nat.not_le]

theorem Instr.wf_eq_false_of_mem_usedSpecifiers {i : Instr} {f : Specifier} (hf : f ∈ i.usedSpecifiers)
    (h : 5 < f.toNat) : i.wf = false :=
  List.all_eq_false.2 ⟨f, hf, Bool.eq_false_iff.1 ((Specifier.valid_eq_false_iff f).2 h)⟩

end Sys2Proof

namespace Sys2Proof.Machine

variable {s : State} {rd rs1 rs2 : Specifier} {d a b : Gpr}

/-! ## The execute phase of any instruction -/

/-- A fault is a next state, so the execute phase always answers one (rule R113, log 6). -/
theorem exec_total (i : Instr) (s : State) : ∃ t, exec i s = .next t := by
  cases i with
  | halt => exact ⟨_, rfl⟩
  | jump imm => exact ⟨_, rfl⟩
  | mv reg imm => exact s.withGpr_total reg fun _ => ⟨_, rfl⟩
  | load reg imm => exact s.withGpr_total reg fun _ => ⟨_, rfl⟩
  | add rd rs1 rs2 =>
    exact s.withGpr_total rd fun _ => s.withGpr_total rs1 fun _ => s.withGpr_total rs2 fun _ => ⟨_, rfl⟩
  | sub rd rs1 rs2 =>
    exact s.withGpr_total rd fun _ => s.withGpr_total rs1 fun _ => s.withGpr_total rs2 fun _ => ⟨_, rfl⟩
  | cmp rs1 rs2 => exact s.withGpr_total rs1 fun _ => s.withGpr_total rs2 fun _ => ⟨_, rfl⟩
  | store reg imm =>
    refine s.withGpr_total reg fun r => ?_
    cases s.memWrite1 (zext32 imm) (lowByte (s.readGpr r)) with
    | some t => exact ⟨t, rfl⟩
    | none => exact ⟨_, rfl⟩

/-- Every other shape the execute phase can take needs all used specifiers to name registers (rules R75, R112). -/
theorem exec_of_not_wf {i : Instr} (h : i.wf = false) (s : State) :
    exec i s = .next (s.raiseFetched .invalidRegister none) := by
  obtain ⟨t, ht⟩ := exec_total i s
  have invalid : i.wf ≠ true := Bool.eq_false_iff.1 h
  rcases exec_cases ht with ⟨hhalt, -⟩ | ⟨_, _, -, valid, -⟩ | ⟨_, _, _, -, valid, -⟩ | ⟨_, hjump, -⟩ |
    ⟨_, _, _, -, valid, -⟩ | ⟨-, hfault⟩ | ⟨_, _, -, valid, -⟩
  · exact absurd (hhalt ▸ rfl) invalid
  · exact absurd valid invalid
  · exact absurd valid invalid
  · exact absurd (hjump ▸ rfl) invalid
  · exact absurd valid invalid
  · rw [ht, hfault]
  · exact absurd valid invalid

/-- The fault of an invalid specifier with its record (rule R113): only the run state changes. -/
theorem exec_of_invalid_specifier {i : Instr} {f : Specifier} (hf : f ∈ i.usedSpecifiers) (h : 5 < f.toNat) (s : State) :
    exec i s =
      .next { s with run := .faulted ⟨.decodeFault, .invalidRegister, s.pc - 4#32, some s.ir, none⟩ } :=
  exec_of_not_wf (Instr.wf_eq_false_of_mem_usedSpecifiers hf h) s

/-! ## The execute phase where the specifiers name registers -/

theorem exec_mv_of_gpr (hd : gpr rd = some d) (imm : Imm) :
    exec (.mv rd imm) s = .next (s.writeGpr d (zext32 imm)) :=
  State.withGpr_of_some hd _

theorem exec_add_of_gpr (hd : gpr rd = some d) (ha : gpr rs1 = some a) (hb : gpr rs2 = some b) :
    exec (.add rd rs1 rs2) s = .next (s.writeGpr d (s.readGpr a + s.readGpr b)) := by
  rw [exec, execAdd, State.withGpr_of_some hd, State.withGpr_of_some ha, State.withGpr_of_some hb]

theorem exec_sub_of_gpr (hd : gpr rd = some d) (ha : gpr rs1 = some a) (hb : gpr rs2 = some b) :
    exec (.sub rd rs1 rs2) s = .next (s.writeGpr d (s.readGpr a - s.readGpr b)) := by
  rw [exec, execSub, State.withGpr_of_some hd, State.withGpr_of_some ha, State.withGpr_of_some hb]

theorem exec_cmp_of_gpr (ha : gpr rs1 = some a) (hb : gpr rs2 = some b) :
    exec (.cmp rs1 rs2) s = .next (s.setSr (compareStatus (s.readGpr a) (s.readGpr b))) := by
  rw [exec, execCmp, State.withGpr_of_some ha, State.withGpr_of_some hb]

/-! ## What a write of a general register or of SR leaves unchanged -/

theorem State.writeGpr_frame (s : State) (d : Gpr) (v : Word) :
    GprsKeptBut d s (s.writeGpr d v) ∧ (s.writeGpr d v).pc = s.pc ∧ (s.writeGpr d v).ir = s.ir ∧
      (s.writeGpr d v).sr = s.sr ∧ UnusedKept s (s.writeGpr d v) ∧ MemoryKept s (s.writeGpr d v) ∧
      (s.writeGpr d v).run = s.run ∧ (s.writeGpr d v).cfg = s.cfg :=
  ⟨fun r hr => by rw [State.readGpr_writeGpr, if_neg hr], rfl, rfl, rfl, ⟨rfl, rfl, rfl⟩, fun _ => rfl, rfl, rfl⟩

theorem State.setSr_frame (s : State) (v : Word) :
    GprsKept s (s.setSr v) ∧ (s.setSr v).pc = s.pc ∧ (s.setSr v).ir = s.ir ∧ UnusedKept s (s.setSr v) ∧
      MemoryKept s (s.setSr v) ∧ (s.setSr v).run = s.run ∧ (s.setSr v).cfg = s.cfg :=
  ⟨fun _ => rfl, rfl, rfl, ⟨rfl, rfl, rfl⟩, fun _ => rfl, rfl, rfl⟩

/-! ## The difference of two words as an integer (rule R72) -/

theorem toNat_sub_eq_emod (x y : Word) : ((x - y).toNat : Int) = ((x.toNat : Int) - y.toNat) % 4294967296 := by
  have hx := x.isLt
  have hy := y.isLt
  rw [BitVec.toNat_sub]
  omega

end Sys2Proof.Machine

namespace Sys2Proof
open Machine

/-! ## The statements -/

/-- Settles O9: the write is of the sum of the state before, which is read back from the destination. -/
theorem addWritesTheWrappedSum : Obligations.AddWritesTheWrappedSum := by
  refine fun s rd rs1 rs2 => ⟨fun c => ⟨rfl, fun _ w hw hop => decode_of_opAdd hw hop⟩,
    fun d a b hd ha hb => ⟨_, exec_add_of_gpr hd ha hb, ?sum, State.writeGpr_frame ..⟩, fun hbad => ?fault⟩
  case sum => rw [State.readGpr_writeGpr_same, BitVec.toNat_add]
  case fault =>
    rcases hbad with h | h | h <;> exact exec_of_invalid_specifier (by simp [Instr.usedSpecifiers]) h s

/-- Settles O10: as for ADD, with the difference taken in the integers. -/
theorem subWritesTheWrappedDifference : Obligations.SubWritesTheWrappedDifference := by
  refine fun s rd rs1 rs2 => ⟨fun c => ⟨rfl, fun ⟨_, _, hdistinct⟩ w hw hop => decode_of_opSub hdistinct hw hop⟩,
    fun d a b hd ha hb => ⟨_, exec_sub_of_gpr hd ha hb, ?difference, State.writeGpr_frame ..⟩, fun hbad => ?fault⟩
  case difference => rw [State.readGpr_writeGpr_same, toNat_sub_eq_emod]
  case fault =>
    rcases hbad with h | h | h <;> exact exec_of_invalid_specifier (by simp [Instr.usedSpecifiers]) h s

/-- Settles O11: SR is the model's comparison of the two sources, whose three values are told apart by `compareStatus_iff`. -/
theorem cmpWritesTheTriState : Obligations.CmpWritesTheTriState := by
  refine fun s rs1 rs2 => ⟨fun c => ⟨rfl, fun ⟨_, _, hdistinct⟩ w hw hop => decode_of_opCmp hdistinct hw hop⟩,
    fun a b ha hb => ?status, fun hbad => ?fault⟩
  case status =>
    obtain ⟨hequal, hless, hgreater⟩ := compareStatus_iff (s.readGpr a) (s.readGpr b)
    exact ⟨_, exec_cmp_of_gpr ha hb, hequal.trans BitVec.toNat_inj.symm, hless, hgreater, State.setSr_frame ..⟩
  case fault =>
    rcases hbad with h | h <;> exact exec_of_invalid_specifier (by simp [Instr.usedSpecifiers]) h s

/-- Settles O7: the destination reads back the zero-extended immediate, whose number is the immediate's. -/
theorem mvWritesTheImmediate : Obligations.MvWritesTheImmediate := by
  refine fun s reg imm => ⟨rfl,
    fun c => ⟨rfl, fun ⟨_, _, hdistinct⟩ w hw hop => decode_of_opMv hdistinct hw hop⟩,
    fun d hd => ⟨_, exec_mv_of_gpr hd imm, ?immediate, State.writeGpr_frame ..⟩,
    fun hbad => exec_of_invalid_specifier (by simp [Instr.usedSpecifiers]) hbad s⟩
  case immediate => rw [State.readGpr_writeGpr_same, zext32_toNat]

end Sys2Proof
end

section
/-! PROOFS. JUMP, the only control transfer, and the fetch fault that follows a target out of bounds (41_jump.md rule R80,
60_exceptions.md rule R113). -/
namespace Sys2Proof.Machine

/-! ## The execute phase of JUMP -/

/-- JUMP uses no specifier and checks no bounds, so it has this one outcome. -/
theorem exec_jump (imm : Imm) (s : State) : exec (.jump imm) s = .next (s.setPc (zext32 imm)) := rfl

theorem State.setPc_frame (s : State) (v : Word) :
    GprsKept s (s.setPc v) ∧ (s.setPc v).ir = s.ir ∧ (s.setPc v).sr = s.sr ∧ UnusedKept s (s.setPc v) ∧
      MemoryKept s (s.setPc v) ∧ (s.setPc v).run = s.run ∧ (s.setPc v).cfg = s.cfg :=
  ⟨fun _ => rfl, rfl, rfl, ⟨rfl, rfl, rfl⟩, fun _ => rfl, rfl, rfl⟩

/-! ## The fetch that is not wholly inside memory -/

/-- The fault of such a fetch with its record (rule R113): only the run state changes. -/
theorem step_of_fetch_out_of_bounds {s : State} (hr : s.run = .running) (h : s.cfg.memSize < s.pc.toNat + 4) :
    step s = .next { s with run := .faulted ⟨.memoryFault, .fetchOutOfBounds, s.pc, none, some s.pc.toNat⟩ } :=
  step_of_fetch_none hr ((State.memRead4_eq_none_iff s s.pc).2 h)

end Sys2Proof.Machine

namespace Sys2Proof
open Machine

/-! ## The statement -/

/-- Settles O12: JUMP is one write of PC; the machine it leaves still runs with the same memory size, so the fetch fault is that of
any PC out of bounds, with the target's number read off the zero-extended immediate. -/
theorem jumpSetsPcAndNothingElse : Obligations.JumpSetsPcAndNothingElse := by
  intro s imm
  have htarget : (s.setPc (zext32 imm)).pc.toNat = imm.toNat := zext32_toNat imm
  obtain ⟨hgprs, hir, hsr, hunused, hmem, hrun, hcfg⟩ := s.setPc_frame (zext32 imm)
  refine ⟨fun c => ⟨rfl, fun ⟨_, _, hdistinct⟩ w hw hop => decode_of_opJump hdistinct hw hop⟩,
    s.setPc (zext32 imm), exec_jump imm s, htarget, hgprs, hir, hsr, hunused, hmem, hrun, hcfg,
    fun hrunning hbounds => ?nextFetch⟩
  case nextFetch =>
    have hout : (s.setPc (zext32 imm)).cfg.memSize < (s.setPc (zext32 imm)).pc.toNat + 4 := by rwa [hcfg, htarget]
    rw [step_of_fetch_out_of_bounds (hrun.trans hrunning) hout, htarget]

end Sys2Proof
end

section
/-! PROOFS. LOAD and STORE (42_load_store.md rules R85 and R86), with STORE's bounds fault and its record (60_exceptions.md rules
R113 and R118). -/
namespace Sys2Proof.Machine

variable {s : State} {reg : Specifier} {imm : Imm} {r d : Gpr}

/-! ## The specifiers that name a register (10_state.md rule R12) -/

theorem exists_gpr_of_le_five (h : reg.toNat ≤ 5) : ∃ r, gpr reg = some r :=
  Option.ne_none_iff_exists'.1 fun hnone => Nat.not_lt.2 h ((gpr_eq_none_iff reg).1 hnone)

/-! ## The execute phase of LOAD and of STORE where the specifier names a register -/

theorem exec_load_of_gpr (hd : gpr reg = some d) (imm : Imm) :
    exec (.load reg imm) s = .next (s.writeGpr d (zext32 imm)) :=
  State.withGpr_of_some hd _

theorem exec_store_of_gpr_of_lt (hr : gpr reg = some r) (h : imm.toNat < s.cfg.memSize) :
    exec (.store reg imm) s = .next (s.setMem (Memory.write s.mem imm.toNat (lowByte (s.readGpr r)))) := by
  have hwrite : s.memWrite1 (zext32 imm) (lowByte (s.readGpr r)) =
      some (s.setMem (Memory.write s.mem imm.toNat (lowByte (s.readGpr r)))) := by
    rw [State.memWrite1_eq_some_iff, zext32_toNat]
    exact ⟨h, rfl⟩
  rw [exec, execStore, State.withGpr_of_some hr, hwrite]

/-- The bounds fault with its record (rule R113): only the run state changes. -/
theorem exec_store_of_gpr_of_le (hr : gpr reg = some r) (h : s.cfg.memSize ≤ imm.toNat) :
    exec (.store reg imm) s =
      .next { s with run := .faulted ⟨.memoryFault, .storeOutOfBounds, s.pc - 4#32, some s.ir, some imm.toNat⟩ } := by
  have hwrite : s.memWrite1 (zext32 imm) (lowByte (s.readGpr r)) = none := by
    rwa [State.memWrite1_eq_none_iff, zext32_toNat]
  rw [exec, execStore, State.withGpr_of_some hr, hwrite, zext32_toNat]
  rfl

/-! ## What a write of memory leaves unchanged -/

theorem State.setMem_frame (s : State) (m : Memory) :
    GprsKept s (s.setMem m) ∧ (s.setMem m).pc = s.pc ∧ (s.setMem m).ir = s.ir ∧ (s.setMem m).sr = s.sr ∧
      UnusedKept s (s.setMem m) ∧ (s.setMem m).run = s.run ∧ (s.setMem m).cfg = s.cfg :=
  ⟨fun _ => rfl, rfl, rfl, rfl, ⟨rfl, rfl, rfl⟩, rfl, rfl⟩

end Sys2Proof.Machine

namespace Sys2Proof
open Machine

/-! ## The statements -/

/-- Settles O13: STORE is one write of the low byte at the immediate address, so each cell is read back by the rule for a read
after a write; the register is looked up before the bounds, which keeps the two faults apart. -/
theorem storeWritesTheLowByte : Obligations.StoreWritesTheLowByte := by
  refine fun s reg imm => ⟨fun c => ⟨rfl, fun ⟨_, _, hdistinct⟩ w hw hop => decode_of_opStore hdistinct hw hop⟩,
    zext32_toNat imm, ?write,
    fun hbad => exec_of_invalid_specifier (by simp [Instr.usedSpecifiers]) hbad s, ?bounds⟩
  case write =>
    intro r a hr haddr hlt
    rw [zext32_toNat] at haddr
    subst haddr
    refine ⟨_, exec_store_of_gpr_of_lt hr hlt, ?cell, fun x hx => Memory.read_write_other s.mem _ hx,
      State.setMem_frame ..⟩
    case cell => rw [State.setMem_mem, Memory.read_write_same, lowByte_toNat]
  case bounds =>
    intro hvalid hout
    obtain ⟨r, hr⟩ := exists_gpr_of_le_five hvalid
    exact exec_store_of_gpr_of_le hr hout

/-- Settles O8: LOAD's one write is that of MV, of the zero-extended immediate; memory does not occur in it. -/
theorem loadWritesTheLiteral : Obligations.LoadWritesTheLiteral := by
  refine fun s reg imm => ⟨
    fun c => ⟨rfl, fun ⟨_, _, hdistinct⟩ w hw hop => decode_of_opLoad hdistinct hw hop⟩,
    fun d hd => ⟨_, exec_load_of_gpr hd imm, ?literal, State.writeGpr_frame ..⟩,
    fun hbad => exec_of_invalid_specifier (by simp [Instr.usedSpecifiers]) hbad s⟩
  case literal => rw [State.readGpr_writeGpr_same, zext32_toNat]

end Sys2Proof
end

section
/-! PROOFS. HALT and the two terminal run states (43_loop_and_halt.md rules R92, R93 and R97). -/
namespace Sys2Proof

variable {c : Config} {w : Word}

/-! ## The decoder's answer for HALT (rules R56, R59) -/

theorem decodeR_ne_halt (op : Opcode) (rd rs1 rs2 : Specifier) : decodeR c op rd rs1 rs2 ≠ .ok .halt := by
  unfold decodeR; split_ifs <;> nofun

theorem decodeI_ne_halt (op : Opcode) (reg : Specifier) (imm : Imm) : decodeI c op reg imm ≠ .ok .halt := by
  unfold decodeI; split_ifs <;> nofun

/-- No opcode selects HALT, so the zero word alone decodes to it. -/
theorem eq_zero_of_decode_eq_halt (h : decode c w = .ok .halt) : w = 0#32 := by
  by_contra hw
  cases hformat : isROpcode c (opcodeField w) with
  | true => exact decodeR_ne_halt _ _ _ _ ((decode_of_rFormat hw hformat).symm.trans h)
  | false => exact decodeI_ne_halt _ _ _ ((decode_of_iFormat hw hformat).symm.trans h)

end Sys2Proof

namespace Sys2Proof.Machine

variable {s t : State} {w : Word} {i : Instr}

/-! ## The execute phase and the run state -/

/-- HALT uses no specifier, so it has this one outcome. -/
theorem exec_halt (s : State) : exec .halt s = .next ((s.setPc (s.pc - 4#32)).setRun .halted) := rfl

/-- Every other shape of the execute phase keeps the run state or takes a fault. -/
theorem eq_halt_of_exec_halted (hr : s.run = .running) (h : exec i s = .next t) (ht : t.run = .halted) : i = .halt := by
  have running_ne : s.run ≠ .halted := by rw [hr]; nofun
  rcases exec_cases h with ⟨hi, -⟩ | ⟨_, _, -, -, rfl⟩ | ⟨_, _, _, -, -, -, rfl⟩ | ⟨_, -, rfl⟩ |
    ⟨_, _, _, -, -, -, rfl⟩ | ⟨-, rfl⟩ | ⟨_, _, -, -, -, rfl⟩
  · exact hi
  · exact absurd ht running_ne
  · exact absurd ht running_ne
  · exact absurd ht running_ne
  · exact absurd ht running_ne
  · nomatch ht
  · nomatch ht

/-! ## Steps -/

theorem step_of_decode_ok (hr : s.run = .running) (hw : s.memRead4 s.pc = some w) (hd : decode s.cfg w = .ok i) :
    step s = exec i (s.fetched w) := by
  simp [step, hr, State.fetch, hw, hd]

/-- The halt undoes the fetch's advance of `PC` (rule R93), so only IR and the run state differ. -/
theorem step_of_zero_word (hr : s.run = .running) (hw : s.memRead4 s.pc = some 0#32) :
    step s = .next { s with ir := 0#32, run := .halted } := by
  have hpc : (s.fetched 0#32).pc - 4#32 = s.pc := s.instrAddr_fetched 0#32
  rw [step_of_decode_ok hr hw rfl, exec_halt, hpc]
  rfl

theorem memRead4_eq_zero_of_step_halted (hr : s.run = .running) (h : step s = .next t) (ht : t.run = .halted) :
    s.memRead4 s.pc = some 0#32 := by
  rcases step_cases hr h with ⟨-, rfl⟩ | ⟨w, hw, ⟨_, -, rfl⟩ | ⟨i, hd, hexec⟩⟩
  · nomatch ht
  · nomatch ht
  · obtain rfl : i = .halt := eq_halt_of_exec_halted (s := s.fetched w) hr hexec ht
    rw [hw, eq_zero_of_decode_eq_halt hd]

theorem runN_of_not_running (h : s.run ≠ .running) (k : Nat) : runN k s = .next s := by
  induction k with
  | zero => rfl
  | succ k ih => rw [runN, step_of_not_running h]; exact ih

end Sys2Proof.Machine

namespace Sys2Proof
open Machine

/-! ## The statements -/

/-- Settles O14: HALT is one write of PC and one of the run state; adding the 4 it took away gives the old PC back. -/
theorem haltRollsPcBackAndHalts : Obligations.HaltRollsPcBackAndHalts := by
  refine fun s => ⟨fun _ => ⟨rfl, rfl⟩, _, exec_halt s, ?pcBack, rfl, fun _ => rfl, rfl, rfl, ⟨rfl, rfl, rfl⟩,
    fun _ => rfl, rfl⟩
  case pcBack =>
    have hback : (s.pc - 4#32 + 4#32).toNat = s.pc.toNat := by rw [BitVec.sub_add_cancel]
    rwa [BitVec.toNat_add] at hback

/-- Settles O21, by induction on the number of steps, each of which answers the state it was given. -/
theorem terminalStatesNeverChange : Obligations.TerminalStatesNeverChange :=
  fun _ k h => ⟨step_of_not_running h, runN_of_not_running h k⟩

/-- Settles O22: the zero word is HALT, whose roll back meets the fetch's advance; conversely only HALT halts, and only the zero
word is HALT. -/
theorem haltExactlyAtTheZeroWord : Obligations.HaltExactlyAtTheZeroWord :=
  fun _ hr => ⟨step_of_zero_word hr, fun _ => memRead4_eq_zero_of_step_halted hr⟩

end Sys2Proof
end

section
/-! PROOFS. The step against the pseudocode of 43_loop_and_halt.md rule R96: the model's operations in natural numbers, each
instruction in the pseudocode's form, and the two tests before it. -/
namespace Sys2Proof

theorem decode_of_unknown_opcode {c : Config} {w : Word} (hw : w ≠ 0#32) (h : opcodeField w ∉ c.opcodes) :
    decode c w = .error (.unknownOpcode (opcodeField w)) := by
  simp only [Config.opcodes, List.mem_cons, List.not_mem_nil, or_false, not_or] at h
  obtain ⟨hMv, hAdd, hSub, hCmp, hJump, hLoad, hStore⟩ := h
  have hI : isROpcode c (opcodeField w) = false := by simp [isROpcode, hAdd, hSub, hCmp]
  rw [decode_of_iFormat hw hI, decodeI, if_neg hMv, if_neg hJump, if_neg hLoad, if_neg hStore]

end Sys2Proof

namespace Sys2Proof.Machine

variable {s t : State} {w : Word} {f : Specifier} {r : Gpr}

/-! ## The fields of a word given as a number (00_scope.md rule R5, 30_encoding.md rules R52 and R54) -/

theorem wordSlice_toNat (w : Word) (hi lo : Nat) : wordSlice w.toNat hi lo = (w.extractLsb' lo (hi - lo + 1)).toNat := by
  rw [BitVec.extractLsb'_toNat, Nat.shiftRight_eq_div_pow, wordSlice]

theorem wordSlice_opcode (w : Word) : wordSlice w.toNat 31 26 = (opcodeField w).toNat := wordSlice_toNat w 31 26
theorem wordSlice_first (w : Word) : wordSlice w.toNat 25 21 = (firstSpecifier w).toNat := wordSlice_toNat w 25 21
theorem wordSlice_rs1 (w : Word) : wordSlice w.toNat 20 16 = (rs1Field w).toNat := wordSlice_toNat w 20 16
theorem wordSlice_rs2 (w : Word) : wordSlice w.toNat 15 11 = (rs2Field w).toNat := wordSlice_toNat w 15 11
theorem wordSlice_imm (w : Word) : wordSlice w.toNat 20 5 = (immField w).toNat := wordSlice_toNat w 20 5

theorem toNat_eq_twelve_iff (op : Opcode) : op.toNat = 12 ↔ op = opMv := BitVec.toNat_inj (y := opMv)

/-! ## Registers by number (10_state.md rules R11, R12) -/

theorem xRead_of_gpr (h : gpr f = some r) : xRead s f.toNat = (s.readGpr r).toNat := by
  rw [(gpr_eq_some_iff f r).1 h]
  cases r <;> rfl

theorem xWrite_of_gpr (h : gpr f = some r) (v : Nat) : xWrite s f.toNat v = s.writeGpr r (BitVec.ofNat 32 v) := by
  rw [(gpr_eq_some_iff f r).1 h]
  cases r <;> rfl

/-- Looking a specifier up is the test of its number. -/
theorem State.withGpr_eq_ite {k : Gpr → Host.Outcome State Fault Refusal} (hk : ∀ r, gpr f = some r → k r = .next t) :
    s.withGpr f k = .next (if 5 < f.toNat then s.raiseFetched .invalidRegister none else t) := by
  split_ifs with h
  · exact State.withGpr_of_none ((gpr_eq_none_iff f).2 h) k
  · obtain ⟨r, hr⟩ := exists_gpr_of_le_five (Nat.not_lt.1 h)
    rw [State.withGpr_of_some hr, hk r hr]

/-! ## The model's arithmetic in natural numbers -/

theorem ofNat_toNat_imm (imm : Imm) : BitVec.ofNat 32 imm.toNat = zext32 imm := BitVec.ofNat_toNat 32 imm

theorem ofNat_add_toNat (x y : Word) : BitVec.ofNat 32 ((x.toNat + y.toNat) % 2 ^ 32) = x + y :=
  BitVec.eq_of_toNat_eq (by simp)

theorem ofNat_sub_toNat (x y : Word) : BitVec.ofNat 32 ((2 ^ 32 + x.toNat - y.toNat) % 2 ^ 32) = x - y := by
  have hy := y.isLt
  have hcomm : 2 ^ 32 + x.toNat - y.toNat = 2 ^ 32 - y.toNat + x.toNat := by omega
  exact BitVec.eq_of_toNat_eq (by rw [BitVec.toNat_ofNat, Nat.mod_mod, hcomm, BitVec.toNat_sub])

theorem ofNat_toNat_lowByte (v : Word) : BitVec.ofNat 8 (v.toNat % 2 ^ 8) = lowByte v :=
  BitVec.eq_of_toNat_eq (by simp [lowByte_toNat])

theorem compareStatus_eq_ite (x y : Word) :
    compareStatus x y = if x.toNat = y.toNat then 0#32 else if x.toNat < y.toNat then 1#32 else 2#32 := by
  simp only [compareStatus, BitVec.toNat_inj, BitVec.lt_def]

/-! ## The instructions in the pseudocode's form -/

theorem exec_mv_eq_ite (reg : Specifier) (imm : Imm) (s : State) :
    exec (.mv reg imm) s =
      .next (if 5 < reg.toNat then s.raiseFetched .invalidRegister none else xWrite s reg.toNat imm.toNat) :=
  State.withGpr_eq_ite fun d hd => by rw [xWrite_of_gpr hd, ofNat_toNat_imm]

/-- LOAD's meaning is MV's (rule R85). -/
theorem exec_load_eq_ite (reg : Specifier) (imm : Imm) (s : State) :
    exec (.load reg imm) s =
      .next (if 5 < reg.toNat then s.raiseFetched .invalidRegister none else xWrite s reg.toNat imm.toNat) :=
  exec_mv_eq_ite reg imm s

theorem exec_add_eq_ite (rd rs1 rs2 : Specifier) (s : State) :
    exec (.add rd rs1 rs2) s =
      .next (if 5 < rd.toNat ∨ 5 < rs1.toNat ∨ 5 < rs2.toNat then s.raiseFetched .invalidRegister none
        else xWrite s rd.toNat ((xRead s rs1.toNat + xRead s rs2.toNat) % 2 ^ 32)) := by
  rw [ite_or, ite_or]
  exact State.withGpr_eq_ite fun d hd => State.withGpr_eq_ite fun a ha => State.withGpr_eq_ite fun b hb => by
    rw [xWrite_of_gpr hd, xRead_of_gpr ha, xRead_of_gpr hb, ofNat_add_toNat]

theorem exec_sub_eq_ite (rd rs1 rs2 : Specifier) (s : State) :
    exec (.sub rd rs1 rs2) s =
      .next (if 5 < rd.toNat ∨ 5 < rs1.toNat ∨ 5 < rs2.toNat then s.raiseFetched .invalidRegister none
        else xWrite s rd.toNat ((2 ^ 32 + xRead s rs1.toNat - xRead s rs2.toNat) % 2 ^ 32)) := by
  rw [ite_or, ite_or]
  exact State.withGpr_eq_ite fun d hd => State.withGpr_eq_ite fun a ha => State.withGpr_eq_ite fun b hb => by
    rw [xWrite_of_gpr hd, xRead_of_gpr ha, xRead_of_gpr hb, ofNat_sub_toNat]

theorem exec_cmp_eq_ite (rs1 rs2 : Specifier) (s : State) :
    exec (.cmp rs1 rs2) s =
      .next (if 5 < rs1.toNat ∨ 5 < rs2.toNat then s.raiseFetched .invalidRegister none
        else s.setSr (if xRead s rs1.toNat = xRead s rs2.toNat then 0#32
          else if xRead s rs1.toNat < xRead s rs2.toNat then 1#32 else 2#32)) := by
  rw [ite_or]
  exact State.withGpr_eq_ite fun a ha => State.withGpr_eq_ite fun b hb => by
    rw [xRead_of_gpr ha, xRead_of_gpr hb, compareStatus_eq_ite]

theorem exec_store_eq_ite (reg : Specifier) (imm : Imm) (s : State) :
    exec (.store reg imm) s =
      .next (if 5 < reg.toNat then s.raiseFetched .invalidRegister none
        else if s.cfg.memSize ≤ imm.toNat then s.raiseFetched .storeOutOfBounds (some imm.toNat)
        else s.setMem (Memory.write s.mem imm.toNat (BitVec.ofNat 8 (xRead s reg.toNat % 2 ^ 8)))) := by
  by_cases hbad : 5 < reg.toNat
  · rw [if_pos hbad]
    exact exec_of_invalid_specifier (by simp [Instr.usedSpecifiers]) hbad s
  · obtain ⟨r, hr⟩ := exists_gpr_of_le_five (Nat.not_lt.1 hbad)
    rw [if_neg hbad, xRead_of_gpr hr, ofNat_toNat_lowByte]
    split_ifs with hout
    · exact exec_store_of_gpr_of_le hr hout
    · exact exec_store_of_gpr_of_lt hr (Nat.not_le.1 hout)

/-! ## Decode and execute -/

/-- What a step does after its fetch. -/
def State.decodeAndExecute (t : State) : Host.Outcome State Fault Refusal :=
  match decode t.cfg t.ir with
  | .ok i => exec i t
  | .error _ => .next (t.raiseFetched .unknownOpcode none)

theorem State.decodeAndExecute_of_ok {i : Instr} (h : decode t.cfg t.ir = .ok i) : t.decodeAndExecute = exec i t := by
  rw [State.decodeAndExecute, h]

theorem State.decodeAndExecute_of_error {e : DecodeReject} (h : decode t.cfg t.ir = .error e) :
    t.decodeAndExecute = .next (t.raiseFetched .unknownOpcode none) := by
  rw [State.decodeAndExecute, h]

theorem step_of_memRead4 (hr : s.run = .running) (hw : s.memRead4 s.pc = some w) :
    step s = (s.fetched w).decodeAndExecute := by
  cases hd : decode s.cfg w with
  | ok i => exact (step_of_decode_ok hr hw hd).trans (State.decodeAndExecute_of_ok (t := s.fetched w) hd).symm
  | error e => exact (step_of_decode_error hr hw hd).trans (State.decodeAndExecute_of_error (t := s.fetched w) hd).symm

/-- The pseudocode's tests of the opcode, in its order, against the decoder's answer for that opcode. -/
theorem State.decodeAndExecute_eq_referenceExecute (hd : t.cfg.opcodes.Nodup) (h0 : t.ir ≠ 0#32) :
    t.decodeAndExecute = .next (referenceExecute t t.instrAddr.toNat t.ir.toNat) := by
  simp only [referenceExecute, wordSlice_opcode, wordSlice_first, wordSlice_rs1, wordSlice_rs2, wordSlice_imm,
    toNat_eq_twelve_iff, BitVec.toNat_inj, BitVec.ofNat_toNat, BitVec.setWidth_eq]
  split
  next h => exact (decodeAndExecute_of_ok (decode_of_opMv hd h0 h)).trans (exec_mv_eq_ite ..)
  split
  next h => exact (decodeAndExecute_of_ok (decode_of_opAdd h0 h)).trans (exec_add_eq_ite ..)
  split
  next h => exact (decodeAndExecute_of_ok (decode_of_opSub hd h0 h)).trans (exec_sub_eq_ite ..)
  split
  next h => exact (decodeAndExecute_of_ok (decode_of_opCmp hd h0 h)).trans (exec_cmp_eq_ite ..)
  split
  next h => exact (decodeAndExecute_of_ok (decode_of_opJump hd h0 h)).trans (exec_jump ..)
  split
  next h => exact (decodeAndExecute_of_ok (decode_of_opLoad hd h0 h)).trans (exec_load_eq_ite ..)
  split
  next h => exact (decodeAndExecute_of_ok (decode_of_opStore hd h0 h)).trans (exec_store_eq_ite ..)
  next hMv hAdd hSub hCmp hJump hLoad hStore =>
    exact decodeAndExecute_of_error (decode_of_unknown_opcode h0 (by
      simp [Config.opcodes, hMv, hAdd, hSub, hCmp, hJump, hLoad, hStore]))

/-! ## The tests before decode (rule R96's first lines) -/

theorem referenceStep_of_not_running (h : s.run ≠ .running) : referenceStep s = s := if_pos h

theorem referenceStep_of_fetch_out_of_bounds (hr : s.run = .running) (h : s.cfg.memSize < s.pc.toNat + 4) :
    referenceStep s = s.raiseFetch := by
  rw [referenceStep, if_neg (not_not.2 hr), if_pos h, BitVec.ofNat_toNat, BitVec.setWidth_eq]
  rfl

/-- The fetched word is the pseudocode's sum of four bytes (rule R33). -/
theorem sum_memAt_eq_toNat (hw : s.memRead4 s.pc = some w) :
    memAt s s.pc.toNat * 2 ^ 24 + memAt s (s.pc.toNat + 1) * 2 ^ 16 + memAt s (s.pc.toNat + 2) * 2 ^ 8 +
      memAt s (s.pc.toNat + 3) = w.toNat := by
  obtain ⟨-, rfl⟩ := (State.memRead4_eq_some_iff ..).1 hw
  exact (wordOfBytes_toNat ..).symm

/-- The pseudocode halts at the zero word with PC back at its address, and goes on to the opcodes for any other. -/
theorem referenceStep_of_memRead4 (hr : s.run = .running) (hw : s.memRead4 s.pc = some w) :
    referenceStep s = if w = 0#32 then { s with ir := 0#32, run := .halted }
      else referenceExecute (s.fetched w) s.pc.toNat w.toNat := by
  obtain ⟨hin, -⟩ := (State.memRead4_eq_some_iff ..).1 hw
  have hpc : BitVec.ofNat 32 ((s.pc.toNat + 4) % 2 ^ 32) = s.pc + 4#32 := ofNat_add_toNat s.pc 4#32
  have hback : BitVec.ofNat 32 ((2 ^ 32 + (s.pc + 4#32).toNat - 4) % 2 ^ 32) = s.pc :=
    (ofNat_sub_toNat (s.pc + 4#32) 4#32).trans (s.instrAddr_fetched 0#32)
  have hzero : w.toNat = 0 ↔ w = 0#32 := BitVec.toNat_inj (y := 0#32)
  rw [referenceStep, if_neg (not_not.2 hr), if_neg (Nat.not_lt.2 hin)]
  simp only [sum_memAt_eq_toNat hw, hpc, hback, hzero, BitVec.ofNat_toNat, BitVec.setWidth_eq]
  split
  next h => rw [h]
  next => rfl

end Sys2Proof.Machine

namespace Sys2Proof
open Machine

/-- Settles O19: not Running and a fetch out of bounds leave the same state on both sides; a fetched word is the same number, the
halt test is the decoder's first row, and every other word goes through the opcodes in the pseudocode's order. -/
theorem stepIsTheSpecsWholeStepFunction : Obligations.StepIsTheSpecsWholeStepFunction := by
  intro s ⟨_, _, hd⟩
  by_cases hr : s.run = .running
  case neg => rw [step_of_not_running hr, referenceStep_of_not_running hr]
  cases hw : s.memRead4 s.pc with
  | none =>
    rw [step_of_fetch_none hr hw, referenceStep_of_fetch_out_of_bounds hr ((State.memRead4_eq_none_iff ..).1 hw)]
  | some w =>
    rw [referenceStep_of_memRead4 hr hw]
    split_ifs with h0
    · exact step_of_zero_word hr (h0 ▸ hw)
    · have hexecute := State.decodeAndExecute_eq_referenceExecute (t := s.fetched w) hd h0
      rw [State.instrAddr_fetched, State.fetched_ir] at hexecute
      rw [step_of_memRead4 hr hw, hexecute]

end Sys2Proof
end

section
/-! PROOFS. The four faults of a step (60_exceptions.md): the state each one leaves (rule R113), and that the cause reported is the
one check that failed (rules R118 and R119). -/
namespace Sys2Proof.Machine

variable {s t : State} {w : Word} {i : Instr} {reg : Specifier} {imm : Imm}

/-! ## The state a fault leaves (rule R113) -/

/-- The fetch advanced `PC` past the faulting instruction; the record holds where it started. -/
theorem State.raiseFetched_fetched (s : State) (w : Word) (cause : FaultCause) (target : Option Nat) :
    (s.fetched w).raiseFetched cause target =
      { s with pc := s.pc + 4#32, ir := w, run := .faulted ⟨cause.kind, cause, s.pc, some w, target⟩ } := by
  rw [State.raiseFetched, State.instrAddr_fetched]
  rfl

theorem step_of_not_wf (hr : s.run = .running) (hw : s.memRead4 s.pc = some w) (hd : decode s.cfg w = .ok i)
    (h : i.wf = false) : step s = .next ((s.fetched w).raiseFetched .invalidRegister none) :=
  (step_of_decode_ok hr hw hd).trans (exec_of_not_wf h (s.fetched w))

theorem step_of_store_out_of_bounds (hr : s.run = .running) (hw : s.memRead4 s.pc = some w)
    (hd : decode s.cfg w = .ok (.store reg imm)) (hvalid : reg.toNat ≤ 5) (hout : s.cfg.memSize ≤ imm.toNat) :
    step s = .next ((s.fetched w).raiseFetched .storeOutOfBounds (some imm.toNat)) := by
  obtain ⟨_, hreg⟩ := exists_gpr_of_le_five hvalid
  exact (step_of_decode_ok hr hw hd).trans (exec_store_of_gpr_of_le (s := s.fetched w) hreg hout)

/-! ## The check that fails (rules R118, R119) -/

/-- The check behind a cause fails in the next step of a Running machine. -/
def State.CheckFails (s : State) : FaultCause → Prop
  | .fetchOutOfBounds => s.memRead4 s.pc = none
  | .unknownOpcode => ∃ w e, s.memRead4 s.pc = some w ∧ decode s.cfg w = .error e
  | .invalidRegister => ∃ i, s.AboutToRun i ∧ i.wf = false
  | .storeOutOfBounds => ∃ reg imm, s.AboutToRun (.store reg imm) ∧ reg.toNat ≤ 5 ∧ s.cfg.memSize ≤ imm.toNat

/-- Faulted, with a record that names this cause. -/
def State.FaultedWith (t : State) (cause : FaultCause) : Prop := ∃ r, t.run = .faulted r ∧ r.cause = cause

theorem State.raiseFetch_faultedWith (s : State) : s.raiseFetch.FaultedWith .fetchOutOfBounds := ⟨_, rfl, rfl⟩

theorem State.raiseFetched_faultedWith (s : State) (cause : FaultCause) (target : Option Nat) :
    (s.raiseFetched cause target).FaultedWith cause := ⟨_, rfl, rfl⟩

theorem State.FaultedWith.unique {c c' : FaultCause} (h : t.FaultedWith c) (h' : t.FaultedWith c') : c = c' := by
  obtain ⟨r, hr, rfl⟩ := h
  obtain ⟨r', hr', rfl⟩ := h'
  obtain rfl : r = r' := RunState.faulted.inj (hr.symm.trans hr')
  rfl

theorem State.not_faultedWith_of_run (hrun : t.run = .running ∨ t.run = .halted) (cause : FaultCause) :
    ¬ t.FaultedWith cause := by
  rintro ⟨r, hr, -⟩
  rcases hrun with h | h <;> nomatch h.symm.trans hr

/-- Execute has two checks of its own: of the specifiers, and of STORE's address (rule R119). -/
theorem exec_faultedWith_cases {cause : FaultCause} (hr : s.run = .running) (h : exec i s = .next t)
    (ht : t.FaultedWith cause) :
    (cause = .invalidRegister ∧ i.wf = false) ∨
      (cause = .storeOutOfBounds ∧
        ∃ reg imm, i = .store reg imm ∧ reg.toNat ≤ 5 ∧ s.cfg.memSize ≤ imm.toNat) := by
  rcases exec_cases h with ⟨-, rfl⟩ | ⟨_, _, -, -, rfl⟩ | ⟨_, _, _, -, -, -, rfl⟩ | ⟨_, -, rfl⟩ |
    ⟨_, _, _, -, -, -, rfl⟩ | ⟨hbad, rfl⟩ | ⟨reg, imm, hstore, hwf, hout, rfl⟩
  · exact absurd ht (State.not_faultedWith_of_run (.inr rfl) cause)
  · exact absurd ht (State.not_faultedWith_of_run (.inl hr) cause)
  · exact absurd ht (State.not_faultedWith_of_run (.inl hr) cause)
  · exact absurd ht (State.not_faultedWith_of_run (.inl hr) cause)
  · exact absurd ht (State.not_faultedWith_of_run (.inl hr) cause)
  · exact .inl ⟨ht.unique (s.raiseFetched_faultedWith ..), hbad⟩
  · have hvalid : reg.toNat ≤ 5 := by simpa [hstore, Instr.wf, Instr.usedSpecifiers, Specifier.valid] using hwf
    exact .inr ⟨ht.unique (s.raiseFetched_faultedWith ..), reg, imm, hstore, hvalid, hout⟩

theorem checkFails_of_step_faultedWith {cause : FaultCause} (hr : s.run = .running) (h : step s = .next t)
    (ht : t.FaultedWith cause) : s.CheckFails cause := by
  rcases step_cases hr h with ⟨hfetch, rfl⟩ | ⟨w, hw, ⟨e, hd, rfl⟩ | ⟨i, hd, hexec⟩⟩
  · obtain rfl := ht.unique s.raiseFetch_faultedWith
    exact hfetch
  · obtain rfl := ht.unique (State.raiseFetched_faultedWith ..)
    exact ⟨w, e, hw, hd⟩
  · rcases exec_faultedWith_cases (s := s.fetched w) hr hexec ht with ⟨rfl, hbad⟩ | ⟨rfl, reg, imm, rfl, hvalid, hout⟩
    · exact ⟨i, ⟨hr, w, hw, hd⟩, hbad⟩
    · exact ⟨reg, imm, ⟨hr, w, hw, hd⟩, hvalid, hout⟩

theorem exists_step_faultedWith_of_checkFails (hr : s.run = .running) :
    ∀ {cause : FaultCause}, s.CheckFails cause → ∃ t, step s = .next t ∧ t.FaultedWith cause
  | .fetchOutOfBounds, hfetch => ⟨_, step_of_fetch_none hr hfetch, s.raiseFetch_faultedWith⟩
  | .unknownOpcode, ⟨_, _, hw, hd⟩ => ⟨_, step_of_decode_error hr hw hd, State.raiseFetched_faultedWith ..⟩
  | .invalidRegister, ⟨_, ⟨_, _, hw, hd⟩, hbad⟩ => ⟨_, step_of_not_wf hr hw hd hbad, State.raiseFetched_faultedWith ..⟩
  | .storeOutOfBounds, ⟨_, _, ⟨_, _, hw, hd⟩, hvalid, hout⟩ =>
    ⟨_, step_of_store_out_of_bounds hr hw hd hvalid hout, State.raiseFetched_faultedWith ..⟩

theorem step_faultedWith_iff (hr : s.run = .running) (h : step s = .next t) (cause : FaultCause) :
    t.FaultedWith cause ↔ s.CheckFails cause := by
  refine ⟨checkFails_of_step_faultedWith hr h, fun hcheck => ?_⟩
  obtain ⟨t', h', ht'⟩ := exists_step_faultedWith_of_checkFails hr hcheck
  obtain rfl : t = t' := Host.Outcome.next.inj (h.symm.trans h')
  exact ht'

end Sys2Proof.Machine

namespace Sys2Proof
open Machine

/-! ## The statements -/

/-- Settles O25: a failed fetch changes the run state alone; the three later faults differ only in what `raiseFetched_fetched`
is given, the cause and the target. -/
theorem faultsLeaveTheStateOfTheTable : Obligations.FaultsLeaveTheStateOfTheTable := by
  refine fun s hr => ⟨step_of_fetch_out_of_bounds hr, fun w hw => ⟨fun h0 hop => ?opcode, fun i f hd hf hbad => ?register,
    fun reg imm hd hvalid hout => ?store⟩⟩
  case opcode =>
    rw [step_of_decode_error hr hw (decode_of_unknown_opcode h0 hop), State.raiseFetched_fetched]
    rfl
  case register =>
    rw [step_of_not_wf hr hw hd (Instr.wf_eq_false_of_mem_usedSpecifiers hf hbad), State.raiseFetched_fetched]
    rfl
  case store =>
    rw [step_of_store_out_of_bounds hr hw hd hvalid hout, State.raiseFetched_fetched]
    rfl

/-- Settles O26: the four clauses are one fact, that a step faults with a cause exactly when that cause's check fails. -/
theorem stepFaultsExactlyInTheseCases : Obligations.StepFaultsExactlyInTheseCases :=
  fun _ _ hr h => ⟨step_faultedWith_iff hr h .fetchOutOfBounds, step_faultedWith_iff hr h .unknownOpcode,
    step_faultedWith_iff hr h .invalidRegister, step_faultedWith_iff hr h .storeOutOfBounds⟩

end Sys2Proof
end

section
/-! PROOFS. An image that memory cannot hold (70_reset_and_hazards.md rule R132). -/
namespace Sys2Proof.Machine

/-- Reset with lawful parameters and an image that does not fit is refused, the other half of `State.create_of_fits`. -/
theorem State.create_of_oversize {c : Config} {image : List Byte} (hc : c.Wf) (hl : c.memSize < image.length) :
    State.create c image = .refused (.imageTooLong image.length c.memSize) := by
  unfold State.create
  rw [if_pos hc, if_pos hl]

end Sys2Proof.Machine

namespace Sys2Proof
open Machine

/-- Settles O37: of the two checks of creation, lawful parameters pass the first and the image's length fails the second. -/
theorem oversizeImageIsRefused : Obligations.OversizeImageIsRefused :=
  fun _ _ hc hl => State.create_of_oversize hc hl

end Sys2Proof
end

section
/-! PROOFS. What one step writes, said once, and the rules on who writes what (10_state.md rules R14, R18, R25; 20_memory.md rules
R31, R45), with the totality of steps and runs (43_loop_and_halt.md rule R100). -/
namespace Sys2Proof.Machine

variable {s t : State} {i : Instr} {w : Word}

/-! ## Every step and every run answers a next state -/

theorem step_total (s : State) : ∃ t, step s = .next t := by
  by_cases hr : s.run = .running
  case neg => exact ⟨s, step_of_not_running hr⟩
  cases hw : s.memRead4 s.pc with
  | none => exact ⟨_, step_of_fetch_none hr hw⟩
  | some w =>
    cases hd : decode s.cfg w with
    | error e => exact ⟨_, step_of_decode_error hr hw hd⟩
    | ok i => rw [step_of_decode_ok hr hw hd]; exact exec_total i _

theorem runN_succ_of_step (h : step s = .next t) (k : Nat) : runN (k + 1) s = runN k t := by
  rw [runN, h]

theorem runN_total (k : Nat) (s : State) : ∃ t, runN k s = .next t := by
  induction k generalizing s with
  | zero => exact ⟨s, rfl⟩
  | succ k ih =>
    obtain ⟨u, hu⟩ := step_total s
    rw [runN_succ_of_step hu]
    exact ih u

/-- What every step keeps, every run keeps. -/
theorem runN_keeps {P : State → Prop} (hstep : ∀ s t, P s → step s = .next t → P t) {k : Nat} (hs : P s)
    (h : runN k s = .next t) : P t := by
  induction k generalizing s with
  | zero => exact Host.Outcome.next.inj h ▸ hs
  | succ k ih =>
    obtain ⟨u, hu⟩ := step_total s
    rw [runN_succ_of_step hu] at h
    exact ih (hstep s u hs hu) h

/-! ## What a step writes -/

/-- The fields that say where the machine is in its run, replaced; they are the fields a fetch, a JUMP, a halt and a fault write. -/
def State.withControl (s : State) (pc ir : Word) (run : RunState) : State := { s with pc := pc, ir := ir, run := run }

/-- What a step may write besides PC, IR and the run state: at most one of its destination register, SR and one cell. -/
inductive State.Writes (s : State) : State → Prop where
  | nothing : s.Writes s
  | destination {i : Instr} {d : Gpr} (v : Word) (hi : s.AboutToRun i) (hd : i.destination = some d) :
      s.Writes (s.writeGpr d v)
  | status {rs1 rs2 : Specifier} {v : Word} (hi : s.AboutToRun (.cmp rs1 rs2)) (hwf : Instr.wf (.cmp rs1 rs2) = true)
      (hv : v = 0#32 ∨ v = 1#32 ∨ v = 2#32) : s.Writes (s.setSr v)
  | cell {reg : Specifier} {imm : Imm} (v : Byte) (hi : s.AboutToRun (.store reg imm))
      (hwf : Instr.wf (.store reg imm) = true) (hin : imm.toNat < s.cfg.memSize) :
      s.Writes (s.setMem (Memory.write s.mem imm.toNat v))

/-- All that a step can do to the fields outside `withControl`. -/
theorem step_writes (h : step s = .next t) : ∃ u pc ir run, s.Writes u ∧ t = u.withControl pc ir run := by
  by_cases hr : s.run = .running
  case neg =>
    obtain rfl : s = t := Host.Outcome.next.inj ((step_of_not_running hr).symm.trans h)
    exact ⟨s, s.pc, s.ir, s.run, .nothing, rfl⟩
  rcases step_cases hr h with ⟨-, rfl⟩ | ⟨w, hw, ⟨_, -, rfl⟩ | ⟨i, hd, hexec⟩⟩
  · exact ⟨s, _, _, _, .nothing, rfl⟩
  · exact ⟨s, _, _, _, .nothing, rfl⟩
  have hi : s.AboutToRun i := ⟨hr, w, hw, hd⟩
  rcases exec_cases hexec with ⟨-, rfl⟩ | ⟨d, v, hdest, -, rfl⟩ | ⟨_, _, v, rfl, hwf, hv, rfl⟩ | ⟨_, -, rfl⟩ |
    ⟨_, _, v, rfl, hwf, hin, rfl⟩ | ⟨-, rfl⟩ | ⟨_, _, -, -, -, rfl⟩
  · exact ⟨s, _, _, _, .nothing, rfl⟩
  · exact ⟨_, _, _, _, .destination v hi hdest, rfl⟩
  · exact ⟨_, _, _, _, .status hi hwf hv, rfl⟩
  · exact ⟨s, _, _, _, .nothing, rfl⟩
  · exact ⟨_, _, _, _, .cell v hi hwf hin, rfl⟩
  · exact ⟨s, _, _, _, .nothing, rfl⟩
  · exact ⟨s, _, _, _, .nothing, rfl⟩

/-! ## What every step keeps -/

theorem cfg_of_step (h : step s = .next t) : t.cfg = s.cfg := by
  obtain ⟨u, pc, ir, run, hwrites, rfl⟩ := step_writes h
  cases hwrites <;> rfl

theorem unusedKept_of_step (h : step s = .next t) : UnusedKept s t := by
  obtain ⟨u, pc, ir, run, hwrites, rfl⟩ := step_writes h
  cases hwrites <;> exact ⟨rfl, rfl, rfl⟩

theorem statusTriState_of_step (h : step s = .next t) (hs : s.sr = 0#32 ∨ s.sr = 1#32 ∨ s.sr = 2#32) :
    t.sr = 0#32 ∨ t.sr = 1#32 ∨ t.sr = 2#32 := by
  obtain ⟨u, pc, ir, run, hwrites, rfl⟩ := step_writes h
  cases hwrites with
  | nothing | destination | cell => exact hs
  | status _ _ hv => exact hv

theorem memoryWf_of_step (h : step s = .next t) (hs : Memory.wf s.mem = true) : Memory.wf t.mem = true := by
  obtain ⟨u, pc, ir, run, hwrites, rfl⟩ := step_writes h
  cases hwrites with
  | nothing | destination | status => exact hs
  | cell v => exact Memory.wf_write _ v hs

theorem memoryWithin_of_step (h : step s = .next t) (hs : Memory.within s.cfg.memSize s.mem = true) :
    Memory.within t.cfg.memSize t.mem = true := by
  obtain ⟨u, pc, ir, run, hwrites, rfl⟩ := step_writes h
  cases hwrites with
  | nothing | destination | status => exact hs
  | cell v _ _ hin => exact Memory.within_write hs hin

/-! ## What a changed field says of the instruction that ran -/

theorem exists_cmp_of_sr_ne (h : step s = .next t) (hne : t.sr ≠ s.sr) :
    ∃ rs1 rs2, s.AboutToRun (.cmp rs1 rs2) ∧ Instr.wf (.cmp rs1 rs2) = true := by
  obtain ⟨u, pc, ir, run, hwrites, rfl⟩ := step_writes h
  cases hwrites with
  | nothing | destination | cell => exact absurd rfl hne
  | status hi hwf => exact ⟨_, _, hi, hwf⟩

theorem exists_store_of_read_ne {a : Nat} (h : step s = .next t) (hne : Memory.read t.mem a ≠ Memory.read s.mem a) :
    ∃ reg imm, s.AboutToRun (.store reg imm) ∧ Instr.wf (.store reg imm) = true ∧ a = imm.toNat ∧ a < s.cfg.memSize := by
  obtain ⟨u, pc, ir, run, hwrites, rfl⟩ := step_writes h
  cases hwrites with
  | nothing | destination | status => exact absurd rfl hne
  | @cell reg imm v hi hwf hin =>
    have haddr : a = imm.toNat := by_contra fun ha => hne (Memory.read_write_other s.mem v ha)
    exact ⟨reg, imm, hi, hwf, haddr, haddr ▸ hin⟩

theorem exists_destination_of_readGpr_ne {r : Gpr} (h : step s = .next t) (hne : t.readGpr r ≠ s.readGpr r) :
    ∃ i, s.AboutToRun i ∧ i.destination = some r := by
  obtain ⟨u, pc, ir, run, hwrites, rfl⟩ := step_writes h
  cases hwrites with
  | nothing | status | cell => exact absurd rfl hne
  | @destination i d v hi hd =>
    have hreg : r = d := by_contra fun hr => hne ((s.readGpr_writeGpr d r v).trans (if_neg hr))
    exact ⟨i, hi, hreg ▸ hd⟩

end Sys2Proof.Machine

namespace Sys2Proof
open Machine

/-! ## The statements -/

/-- Settles O20: `exec` answers by the cases of its instruction, a step by the fetch and the decoder, a run by induction on its
steps. -/
theorem everyStepAnswersANextState : Obligations.EveryStepAnswersANextState :=
  ⟨exec_total, step_total, runN_total⟩

/-- Settles O27: of the four kinds of write only CMP's touches SR, and it writes 0, 1 or 2. -/
theorem statusRegisterIsWrittenByCmpOnly : Obligations.StatusRegisterIsWrittenByCmpOnly := by
  refine fun s t h => ⟨fun hne => ?changed, statusTriState_of_step h⟩
  case changed =>
    obtain ⟨rs1, rs2, hi, hwf⟩ := exists_cmp_of_sr_ne h hne
    have hvalid : rs1.toNat ≤ 5 ∧ rs2.toNat ≤ 5 := by
      simpa [Instr.wf, Instr.usedSpecifiers, Specifier.valid] using hwf
    exact ⟨rs1, rs2, hi, hvalid⟩

/-- Settles O28: of the four kinds of write only STORE's touches memory, at its own immediate, which has 16 bits. -/
theorem memoryIsWrittenByStoreOnly : Obligations.MemoryIsWrittenByStoreOnly := by
  refine fun s t h => ⟨fun a hne => ?changed, fun a ha => by_contra fun hne => ?high⟩
  case changed =>
    obtain ⟨reg, imm, hi, hwf, haddr, hin⟩ := exists_store_of_read_ne h hne
    have hvalid : reg.toNat ≤ 5 := by simpa [Instr.wf, Instr.usedSpecifiers, Specifier.valid] using hwf
    exact ⟨reg, imm, hi, hvalid, haddr, hin⟩
  case high =>
    obtain ⟨_, imm, -, -, haddr, -⟩ := exists_store_of_read_ne h hne
    have himm := imm.isLt
    omega

/-- Settles O29: of the four kinds of write only that of the destination touches a general register; none touches the
configuration. -/
theorem generalRegistersChangeOnlyAsDestinations : Obligations.GeneralRegistersChangeOnlyAsDestinations :=
  fun _ _ h => ⟨fun _ => exists_destination_of_readGpr_ne h, cfg_of_step h⟩

/-- Settles O35: the one write of memory is `Memory.write`, which keeps the form. -/
theorem everyStepKeepsMemoryCanonical : Obligations.EveryStepKeepsMemoryCanonical :=
  fun _ _ hs h => memoryWf_of_step h hs

end Sys2Proof
end

section
/-! PROOFS. The invariant of 10_state.md rule R29 with the fault record of 60_exceptions.md rule R113: every step keeps it, creation
leaves it, so every state a run reaches has it. -/
namespace Sys2Proof

/-- The decoder refuses only what the map leaves unassigned, the converse of `decode_of_unknown_opcode` (rule R60). -/
theorem unassigned_of_decode_error {c : Config} {w : Word} {e : DecodeReject} (hd : c.opcodes.Nodup)
    (h : decode c w = .error e) : w ≠ 0#32 ∧ opcodeField w ∉ c.opcodes := by
  have h0 : w ≠ 0#32 := by rintro rfl; nomatch h
  refine ⟨h0, fun hop => ?_⟩
  simp only [Config.opcodes, List.mem_cons, List.not_mem_nil, or_false] at hop
  rcases hop with hop | hop | hop | hop | hop | hop | hop
  · nomatch (decode_of_opMv hd h0 hop).symm.trans h
  · nomatch (decode_of_opAdd h0 hop).symm.trans h
  · nomatch (decode_of_opSub hd h0 hop).symm.trans h
  · nomatch (decode_of_opCmp hd h0 hop).symm.trans h
  · nomatch (decode_of_opJump hd h0 hop).symm.trans h
  · nomatch (decode_of_opLoad hd h0 hop).symm.trans h
  · nomatch (decode_of_opStore hd h0 hop).symm.trans h

theorem Config.atReset_wf : Config.atReset.Wf := by decide

end Sys2Proof

namespace Sys2Proof.Machine

variable {s t : State} {r : FaultRecord}

/-! ## The two ends of a run -/

theorem haltedAtZeroWord_of_step (hr : s.run = .running) (h : step s = .next t) (ht : t.run = .halted) :
    t.ir = 0#32 ∧ t.memRead4 t.pc = some 0#32 := by
  have hw := memRead4_eq_zero_of_step_halted hr h ht
  obtain rfl := Host.Outcome.next.inj ((step_of_zero_word hr hw).symm.trans h)
  exact ⟨rfl, hw⟩

/-- No fault writes memory, so the word a record names can still be read where it was fetched. -/
theorem faultRecorded_of_step (hc : s.cfg.opcodes.Nodup) (hr : s.run = .running) (h : step s = .next t)
    (ht : t.run = .faulted r) : r.fits t := by
  obtain ⟨cause, hcause⟩ : ∃ cause, r.cause = cause := ⟨_, rfl⟩
  have hcheck : s.CheckFails cause := checkFails_of_step_faultedWith hr h ⟨r, ht, hcause⟩
  cases cause with
  | fetchOutOfBounds =>
    obtain rfl := Host.Outcome.next.inj ((step_of_fetch_none hr hcheck).symm.trans h)
    obtain rfl := RunState.faulted.inj ht
    exact ⟨rfl, rfl, rfl, rfl, (State.memRead4_eq_none_iff ..).1 hcheck⟩
  | unknownOpcode =>
    obtain ⟨w, e, hw, hd⟩ := hcheck
    obtain ⟨h0, hop⟩ := unassigned_of_decode_error hc hd
    obtain rfl := Host.Outcome.next.inj ((step_of_decode_error hr hw hd).symm.trans h)
    rw [State.raiseFetched_fetched] at ht ⊢
    obtain rfl := RunState.faulted.inj ht
    exact ⟨rfl, rfl, rfl, rfl, hw, h0, hop⟩
  | invalidRegister =>
    obtain ⟨i, ⟨-, w, hw, hd⟩, hbad⟩ := hcheck
    obtain rfl := Host.Outcome.next.inj ((step_of_not_wf hr hw hd hbad).symm.trans h)
    rw [State.raiseFetched_fetched] at ht ⊢
    obtain rfl := RunState.faulted.inj ht
    exact ⟨rfl, rfl, rfl, rfl, hw, i, hd, hbad⟩
  | storeOutOfBounds =>
    obtain ⟨reg, imm, ⟨-, w, hw, hd⟩, hvalid, hout⟩ := hcheck
    obtain rfl := Host.Outcome.next.inj ((step_of_store_out_of_bounds hr hw hd hvalid hout).symm.trans h)
    rw [State.raiseFetched_fetched] at ht ⊢
    obtain rfl := RunState.faulted.inj ht
    exact ⟨rfl, rfl, rfl, hw, reg, imm, hd, decide_eq_true hvalid, rfl, hout⟩

/-! ## The invariant -/

theorem State.Inv.of_step_of_running (hs : s.Inv) (hr : s.run = .running) (h : step s = .next t) : t.Inv := by
  obtain ⟨hsp, hmdr, hmar⟩ := hs.unusedZero
  obtain ⟨ksp, kmdr, kmar⟩ := unusedKept_of_step h
  obtain ⟨-, -, hdistinct⟩ := hs.configWf
  exact {
    configWf := (cfg_of_step h).symm ▸ hs.configWf
    statusTriState := statusTriState_of_step h hs.statusTriState
    unusedZero := ⟨ksp.trans hsp, kmdr.trans hmdr, kmar.trans hmar⟩
    haltedAtZeroWord := haltedAtZeroWord_of_step hr h
    faultRecorded := fun _ => faultRecorded_of_step hdistinct hr h
    memoryWf := memoryWf_of_step h hs.memoryWf
    memoryWithin := memoryWithin_of_step h hs.memoryWithin }

theorem State.Inv.of_step (hs : s.Inv) (h : step s = .next t) : t.Inv := by
  by_cases hr : s.run = .running
  · exact hs.of_step_of_running hr h
  · exact Host.Outcome.next.inj ((step_of_not_running hr).symm.trans h) ▸ hs

/-- A fresh machine is lawful whatever image it holds. -/
theorem State.inv_fresh {c : Config} {image : List Byte} (hc : c.Wf) (hl : image.length ≤ c.memSize) :
    (State.fresh c (Memory.ofImage 0 image)).Inv where
  configWf := hc
  statusTriState := .inl rfl
  unusedZero := ⟨rfl, rfl, rfl⟩
  haltedAtZeroWord := nofun
  faultRecorded := nofun
  memoryWf := Memory.wf_ofImage image
  memoryWithin := Memory.within_ofImage c.memSize 0 image ((Nat.zero_add _).symm ▸ hl)

/-- Creation answers a machine only where both its checks pass (rules R4, R132). -/
theorem State.create_eq_next {c : Config} {image : List Byte} (h : State.create c image = .next s) :
    c.Wf ∧ image.length ≤ c.memSize ∧ s = State.fresh c (Memory.ofImage 0 image) := by
  unfold State.create at h
  split_ifs at h with hc hl
  exact ⟨hc, Nat.not_lt.1 hl, (Host.Outcome.next.inj h).symm⟩

end Sys2Proof.Machine

namespace Sys2Proof
open Machine

/-! ## The statements -/

/-- Settles O32: a step of an ended machine changes nothing; of a Running one, what the step writes keeps each clause on a field, and
the clauses on the two ends follow from what makes a step halt or fault. -/
theorem everyStepKeepsTheStateLawful : Obligations.EveryStepKeepsTheStateLawful :=
  fun _ _ hs h => hs.of_step h

/-- Settles O33: reset is the fresh machine with the empty image. -/
theorem resetStateIsLawful : Obligations.ResetStateIsLawful :=
  State.inv_fresh (image := []) Config.atReset_wf (Nat.zero_le _)

/-- Settles O34: creation leaves a fresh machine, and what every step keeps every run keeps. -/
theorem everyReachableStateIsLawful : Obligations.EveryReachableStateIsLawful := by
  intro c image s t k hcreate hrun
  obtain ⟨hc, hl, rfl⟩ := State.create_eq_next hcreate
  exact runN_keeps (fun _ _ => State.Inv.of_step) (State.inv_fresh hc hl) hrun

/-- Settles O38: the empty image fits every memory, and a fresh machine's registers are 0. -/
theorem resetIsTheEmptyImage : Obligations.ResetIsTheEmptyImage :=
  ⟨⟨Config.atReset, State.create_of_fits Config.atReset_wf (Nat.zero_le _)⟩, State.readRegister_fresh _ _, rfl,
    fun _ => rfl⟩

end Sys2Proof
end

section
/-! PROOFS. Instruction sequences and runs: SUB after ADD, the next PC (41_jump.md rule R82), runs past their end
(43_loop_and_halt.md rules R97, R98), and the sizes at which memory faults cannot happen (20_memory.md rule R45). -/
namespace Sys2Proof.Machine

variable {s t : State} {i : Instr}

/-! ## The next PC -/

theorem exec_pc_of_ne_halt_ne_jump (h : exec i s = .next t) (hhalt : i ≠ .halt) (hjump : ∀ imm, i ≠ .jump imm) :
    t.pc = s.pc := by
  rcases exec_cases h with ⟨hi, -⟩ | ⟨_, _, -, -, rfl⟩ | ⟨_, _, _, -, -, -, rfl⟩ | ⟨imm, hi, -⟩ |
    ⟨_, _, _, -, -, -, rfl⟩ | ⟨-, rfl⟩ | ⟨_, _, -, -, -, rfl⟩
  · exact absurd hi hhalt
  · rfl
  · rfl
  · exact absurd hi (hjump imm)
  · rfl
  · rfl
  · rfl

/-- Neither a fault nor any instruction but HALT and JUMP moves PC off what the fetch left. -/
theorem step_pc_of_ne_zero_ne_jump {w : Word} (hr : s.run = .running) (hw : s.memRead4 s.pc = some w) (h0 : w ≠ 0#32)
    (hjump : ∀ imm, decode s.cfg w ≠ .ok (.jump imm)) (h : step s = .next t) : t.pc = s.pc + 4#32 := by
  cases hd : decode s.cfg w with
  | error e => exact Host.Outcome.next.inj ((step_of_decode_error hr hw hd).symm.trans h) ▸ rfl
  | ok i =>
    rw [step_of_decode_ok hr hw hd] at h
    refine exec_pc_of_ne_halt_ne_jump (s := s.fetched w) h ?notHalt fun imm hi => hjump imm (hi ▸ hd)
    case notHalt => rintro rfl; exact h0 (eq_zero_of_decode_eq_halt hd)

/-! ## Runs in two parts, and `run_to_halt` -/

theorem runN_add_of_runN {k : Nat} (h : runN k s = .next t) (j : Nat) : runN (k + j) s = runN j t := by
  induction k generalizing s with
  | zero => rw [Nat.zero_add, Host.Outcome.next.inj h]
  | succ k ih =>
    obtain ⟨u, hu⟩ := step_total s
    rw [runN_succ_of_step hu] at h
    rw [Nat.add_right_comm, runN_succ_of_step hu, ih h]

theorem State.ended_iff (s : State) : s.ended = true ↔ s.run ≠ .running := decide_eq_true_iff

theorem runToHalt_of_ended (h : s.run ≠ .running) (k : Nat) : runToHalt k s = some s := by
  cases k <;> exact if_pos (s.ended_iff.2 h)

theorem runToHalt_zero_of_running (h : s.run = .running) : runToHalt 0 s = none :=
  if_neg fun hended => s.ended_iff.1 hended h

theorem runToHalt_succ_of_step (hr : s.run = .running) (h : step s = .next t) (k : Nat) :
    runToHalt (k + 1) s = runToHalt k t := by
  rw [runToHalt, if_neg fun hended => s.ended_iff.1 hended hr, h]

theorem runToHalt_eq_some_iff (k : Nat) (s t : State) :
    runToHalt k s = some t ↔ runN k s = .next t ∧ t.run ≠ .running := by
  induction k generalizing s with
  | zero =>
    by_cases hr : s.run = .running
    · rw [runToHalt_zero_of_running hr]
      exact ⟨nofun, fun ⟨hrun, hend⟩ => absurd hr (Host.Outcome.next.inj hrun ▸ hend)⟩
    · rw [runToHalt_of_ended hr, Option.some_inj]
      exact ⟨fun h => h ▸ ⟨rfl, hr⟩, fun ⟨hrun, _⟩ => Host.Outcome.next.inj hrun⟩
  | succ k ih =>
    by_cases hr : s.run = .running
    · obtain ⟨u, hu⟩ := step_total s
      rw [runToHalt_succ_of_step hr hu, runN_succ_of_step hu, ih]
    · rw [runToHalt_of_ended hr, runN_of_not_running hr, Option.some_inj]
      exact ⟨fun h => h ▸ ⟨rfl, hr⟩, fun ⟨hrun, _⟩ => Host.Outcome.next.inj hrun⟩

/-! ## Faults of a STORE -/

theorem kind_of_exec_store_faulted {reg : Specifier} {imm : Imm} {r : FaultRecord} (hr : s.run = .running)
    (hin : imm.toNat < s.cfg.memSize) (h : exec (.store reg imm) s = .next t) (ht : t.run = .faulted r) :
    r.kind = .decodeFault := by
  rcases execStore_cases h with ⟨_, -, -, rfl⟩ | ⟨-, rfl⟩ | ⟨_, -, hout, -⟩
  · nomatch hr.symm.trans ht
  · exact RunState.faulted.inj ht ▸ rfl
  · exact absurd hin (Nat.not_lt.2 hout)

end Sys2Proof.Machine

namespace Sys2Proof
open Machine

/-! ## The statements -/

/-- Settles O15: the SUB reads the sum back from the destination, and the second source as it was unless it is the destination. -/
theorem subUndoesAdd : Obligations.SubUndoesAdd := by
  intro s rd rs1 rs2 d a b hd ha hb
  refine ⟨_, _, exec_add_of_gpr hd ha hb, exec_sub_of_gpr hd hd hb, fun hdb => ?other, fun hdb => ?same⟩
  case other =>
    rw [State.readGpr_writeGpr_same, State.readGpr_writeGpr_same, State.readGpr_writeGpr, if_neg (Ne.symm hdb),
      BitVec.add_sub_cancel]
  case same => rw [State.readGpr_writeGpr_same, hdb, BitVec.sub_self]

/-- Settles O18: the state the fetch leaves is the one the statement writes out. -/
theorem stepRunsTheDecodedInstruction : Obligations.StepRunsTheDecodedInstruction :=
  fun _ _ _ hr hw hd => step_of_decode_ok hr hw hd

/-- Settles O23: a failed fetch leaves PC, a halt takes the advance back, a JUMP writes it, and nothing else touches it after the
fetch. -/
theorem nextPcOfEveryStep : Obligations.NextPcOfEveryStep := by
  intro s hr
  obtain ⟨t, ht⟩ := step_total s
  refine ⟨t, ht, fun hw => ?noFetch, fun w hw => ⟨fun h0 => ?halt, fun imm hd => ?jump, fun h0 hjump => ?other⟩⟩
  case noFetch => exact Host.Outcome.next.inj ((step_of_fetch_none hr hw).symm.trans ht) ▸ rfl
  case halt => exact Host.Outcome.next.inj ((step_of_zero_word hr (h0 ▸ hw)).symm.trans ht) ▸ rfl
  case jump =>
    rw [step_of_decode_ok hr hw hd, exec_jump] at ht
    rw [← Host.Outcome.next.inj ht, State.setPc_pc, zext32_toNat]
  case other => rw [step_pc_of_ne_zero_ne_jump hr hw h0 hjump ht, BitVec.toNat_add]; rfl

/-- Settles O24: the further steps start from the ended state, which they leave; `run_to_halt` and `run_n` agree by induction on
the steps. -/
theorem moreStepsAfterTheEndAreHarmless : Obligations.MoreStepsAfterTheEndAreHarmless :=
  ⟨fun _ j _ _ hrun hend => (runN_add_of_runN hrun j).trans (runN_of_not_running hend j), runToHalt_eq_some_iff⟩

/-- Settles O31: a 16-bit address is below 65536, and the step after a JUMP fails its fetch exactly where four bytes at the target
are not all in memory. -/
theorem largeMemoryNeverFaultsAStore : Obligations.LargeMemoryNeverFaultsAStore := by
  refine fun s hr => ⟨fun hsize reg imm t r h ht => ?store, fun imm => ?jump, fun hsize imm => ?never⟩
  case store => exact kind_of_exec_store_faulted hr (Nat.lt_of_lt_of_le imm.isLt hsize) h ht
  case jump =>
    obtain ⟨u, hu⟩ := step_total (s.setPc (zext32 imm))
    have hfetch := (step_faultedWith_iff (s := s.setPc (zext32 imm)) hr hu .fetchOutOfBounds).trans
      (State.memRead4_eq_none_iff ..)
    rw [State.setPc_pc, zext32_toNat] at hfetch
    exact ⟨_, u, exec_jump imm s, hu, hfetch⟩
  case never =>
    have himm := imm.isLt
    omega

end Sys2Proof
end

section
/-! PROOFS. What the machine reads: two machines that differ in SR, SP, MDR and MAR only run alike (10_state.md rules R18, R20,
R21). -/
namespace Sys2Proof.Machine

variable {s s' : State}

/-! ## Agreement on all but the four registers -/

/-- The registers no rule reads, replaced. -/
def State.withUnread (s : State) (sp sr mdr mar : Word) : State := { s with sp := sp, sr := sr, mdr := mdr, mar := mar }

theorem AgreeOnWhatIsRead.eq_withUnread (h : AgreeOnWhatIsRead s s') : s' = s.withUnread s'.sp s'.sr s'.mdr s'.mar := by
  obtain ⟨cfg', gprs', pc', sp', ir', sr', mdr', mar', mem', run'⟩ := s'
  obtain ⟨rfl, rfl, rfl, rfl, rfl, rfl⟩ := h
  rfl

/-- Both answer a next state, and these agree on everything a rule reads. -/
def AnswersAgree (o o' : Host.Outcome State Fault Refusal) : Prop :=
  ∃ t t', o = .next t ∧ o' = .next t' ∧ AgreeOnWhatIsRead t t'

theorem answersAgree_next (t : State) (sp sr mdr mar : Word) :
    AnswersAgree (.next t) (.next (t.withUnread sp sr mdr mar)) :=
  ⟨_, _, rfl, rfl, rfl, rfl, rfl, rfl, rfl, rfl⟩

/-! ## What the four registers do not reach -/

section
variable (s : State) (sp sr mdr mar : Word)

theorem State.memWrite1_withUnread (addr : Word) (v : Byte) :
    (s.withUnread sp sr mdr mar).memWrite1 addr v = (s.memWrite1 addr v).map (·.withUnread sp sr mdr mar) :=
  (apply_ite (Option.map fun t : State => t.withUnread sp sr mdr mar) (s.cfg.memSize ≤ addr.toNat) none
    (some (s.setMem (Memory.write s.mem addr.toNat v)))).symm

theorem State.withGpr_answersAgree (f : Specifier) {k k' : Gpr → Host.Outcome State Fault Refusal}
    (hk : ∀ r, AnswersAgree (k r) (k' r)) : AnswersAgree (s.withGpr f k) ((s.withUnread sp sr mdr mar).withGpr f k') := by
  cases hf : gpr f with
  | none =>
    rw [State.withGpr_of_none hf, State.withGpr_of_none hf]
    exact answersAgree_next (s.raiseFetched .invalidRegister none) sp sr mdr mar
  | some r =>
    rw [State.withGpr_of_some hf, State.withGpr_of_some hf]
    exact hk r

/-- Each update an instruction makes commutes with replacing the four registers, CMP's but for the SR it writes. -/
theorem exec_answersAgree (i : Instr) : AnswersAgree (exec i s) (exec i (s.withUnread sp sr mdr mar)) := by
  cases i with
  | halt => exact answersAgree_next ((s.setPc (s.pc - 4#32)).setRun .halted) sp sr mdr mar
  | jump imm => exact answersAgree_next (s.setPc (zext32 imm)) sp sr mdr mar
  | mv reg imm | load reg imm =>
    exact s.withGpr_answersAgree sp sr mdr mar reg fun d =>
      answersAgree_next (s.writeGpr d (zext32 imm)) sp sr mdr mar
  | add rd rs1 rs2 =>
    exact s.withGpr_answersAgree sp sr mdr mar rd fun d => s.withGpr_answersAgree sp sr mdr mar rs1 fun a =>
      s.withGpr_answersAgree sp sr mdr mar rs2 fun b =>
        answersAgree_next (s.writeGpr d (s.readGpr a + s.readGpr b)) sp sr mdr mar
  | sub rd rs1 rs2 =>
    exact s.withGpr_answersAgree sp sr mdr mar rd fun d => s.withGpr_answersAgree sp sr mdr mar rs1 fun a =>
      s.withGpr_answersAgree sp sr mdr mar rs2 fun b =>
        answersAgree_next (s.writeGpr d (s.readGpr a - s.readGpr b)) sp sr mdr mar
  | cmp rs1 rs2 =>
    exact s.withGpr_answersAgree sp sr mdr mar rs1 fun a => s.withGpr_answersAgree sp sr mdr mar rs2 fun b =>
      answersAgree_next (s.setSr (compareStatus (s.readGpr a) (s.readGpr b))) sp _ mdr mar
  | store reg imm =>
    refine s.withGpr_answersAgree sp sr mdr mar reg fun r => ?_
    have hread : (s.withUnread sp sr mdr mar).readGpr r = s.readGpr r := rfl
    rw [hread, State.memWrite1_withUnread]
    cases s.memWrite1 (zext32 imm) (lowByte (s.readGpr r)) with
    | some t => exact answersAgree_next t sp sr mdr mar
    | none => exact answersAgree_next (s.raiseFetched .storeOutOfBounds (some (zext32 imm).toNat)) sp sr mdr mar

theorem step_withUnread_answersAgree : AnswersAgree (step s) (step (s.withUnread sp sr mdr mar)) := by
  by_cases hr : s.run = .running
  case neg =>
    rw [step_of_not_running hr, step_of_not_running (s := s.withUnread sp sr mdr mar) hr]
    exact answersAgree_next s sp sr mdr mar
  cases hw : s.memRead4 s.pc with
  | none =>
    rw [step_of_fetch_none hr hw, step_of_fetch_none (s := s.withUnread sp sr mdr mar) hr hw]
    exact answersAgree_next s.raiseFetch sp sr mdr mar
  | some w =>
    cases hd : decode s.cfg w with
    | error e =>
      rw [step_of_decode_error hr hw hd, step_of_decode_error (s := s.withUnread sp sr mdr mar) hr hw hd]
      exact answersAgree_next ((s.fetched w).raiseFetched .unknownOpcode none) sp sr mdr mar
    | ok i =>
      rw [step_of_decode_ok hr hw hd, step_of_decode_ok (s := s.withUnread sp sr mdr mar) hr hw hd]
      exact exec_answersAgree (s.fetched w) sp sr mdr mar i

end

theorem runN_answersAgree (k : Nat) (h : AgreeOnWhatIsRead s s') : AnswersAgree (runN k s) (runN k s') := by
  induction k generalizing s s' with
  | zero => exact ⟨s, s', rfl, rfl, h⟩
  | succ k ih =>
    obtain ⟨u, u', hu, hu', hagree⟩ := step_withUnread_answersAgree s s'.sp s'.sr s'.mdr s'.mar
    rw [← h.eq_withUnread] at hu'
    rw [runN_succ_of_step hu, runN_succ_of_step hu']
    exact ih hagree

/-! ## What nothing writes -/

theorem unusedKept_of_runN {k : Nat} {t : State} (h : runN k s = .next t) : UnusedKept s t := by
  refine runN_keeps (P := UnusedKept s) (fun u v hu hstep => ?step) ⟨rfl, rfl, rfl⟩ h
  case step =>
    obtain ⟨hsp, hmdr, hmar⟩ := hu
    obtain ⟨ksp, kmdr, kmar⟩ := unusedKept_of_step hstep
    exact ⟨ksp.trans hsp, kmdr.trans hmdr, kmar.trans hmar⟩

end Sys2Proof.Machine

namespace Sys2Proof
open Machine

/-- Settles O30: agreement passes through each instruction and each step, and so through a run by induction on its steps; no step
writes the last three registers. -/
theorem statusAndUnusedRegistersAreNeverRead : Obligations.StatusAndUnusedRegistersAreNeverRead := by
  intro k s s' h
  obtain ⟨t, t', ht, ht', hagree⟩ := runN_answersAgree k h
  exact ⟨t, t', ht, ht', hagree, unusedKept_of_runN ht, unusedKept_of_runN ht'⟩

end Sys2Proof
end

section
/-! PROOFS. The decoder's answer for every word, and for the words of 95_test_vectors.md (30_encoding.md sections 3 and 4). -/
namespace Sys2Proof

/-- The table's decoder gives back every instruction from the word the encoder packs under the default opcodes. -/
theorem decodeTableWord_encode (i : Instr) :
    decodeTableWord 32 (encode (Config.withDefaultOpcodes 65536) i).toNat = some i := by
  have hdecode : decode (Config.withDefaultOpcodes 65536) (encode (Config.withDefaultOpcodes 65536) i) = .ok i :=
    decode_encode (Config.withDefaultOpcodes_nodup _)
      (eq_halt_of_encode_eq_zero (Config.zero_not_mem_withDefaultOpcodes _))
  have hbytes := decodeBytes_encodeBytes [] hdecode
  rw [List.append_nil, encodeBytes] at hbytes
  rw [decodeTableWord, Nat.mod_eq_of_lt (BitVec.isLt _), BitVec.ofNat_toNat, BitVec.setWidth_eq, hbytes]

/-! ## The statements -/

/-- Settles O3: the operand fields are the same bits, so each clause is the decoder's answer for its opcode. -/
theorem everyWordDecodesAsTheMapSays : Obligations.EveryWordDecodesAsTheMapSays :=
  fun _ _ ⟨_, _, hd⟩ => ⟨⟨eq_zero_of_decode_eq_halt, fun h0 => h0 ▸ rfl⟩, fun h0 =>
    ⟨fun hop => decode_of_opMv hd h0 hop, fun hop => decode_of_opAdd h0 hop, fun hop => decode_of_opSub hd h0 hop,
      fun hop => decode_of_opCmp hd h0 hop, fun hop => decode_of_opJump hd h0 hop,
      fun hop => decode_of_opLoad hd h0 hop, fun hop => decode_of_opStore hd h0 hop,
      fun hop => decode_of_unknown_opcode h0 hop⟩⟩

/-- Settles O5: each word is the one the encoder packs for its instruction; the word 1 has the unassigned opcode 0. -/
theorem wordsOfTheSpecDecode : Obligations.WordsOfTheSpecDecode :=
  ⟨decodeTableWord_encode (.mv 1#5 5#16), decodeTableWord_encode (.add 0#5 1#5 2#5),
    decodeTableWord_encode (.sub 3#5 4#5 5#5), decodeTableWord_encode (.cmp 1#5 2#5),
    decodeTableWord_encode (.jump 16#16), decodeTableWord_encode (.load 4#5 0x1234#16),
    decodeTableWord_encode (.store 5#5 255#16), decodeTableWord_encode .halt, by decide, by decide⟩

end Sys2Proof
end

section
/-! PROOFS. Words in memory after a STORE, after the host's placing of a word, and at the bounds (20_memory.md sections 3 and 8,
log 10). -/
namespace Sys2Proof.Machine

variable {s : State} {w : Word}

/-! ## The bytes of a word that was read -/

theorem byteOfWord_of_memRead4 {addr : Word} (h : s.memRead4 addr = some w) {k : Nat} (hk : k < 4) :
    byteOfWord w k = Memory.read s.mem (addr.toNat + k) := by
  obtain ⟨-, rfl⟩ := (State.memRead4_eq_some_iff ..).1 h
  interval_cases k
  · exact byteOfWord_wordOfBytes_0 ..
  · exact byteOfWord_wordOfBytes_1 ..
  · exact byteOfWord_wordOfBytes_2 ..
  · exact byteOfWord_wordOfBytes_3 ..

theorem ofNat_toNat_eq_lowByte (v : Word) : BitVec.ofNat 8 v.toNat = lowByte v :=
  BitVec.eq_of_toNat_eq (by rw [BitVec.toNat_ofNat, lowByte_toNat])

/-! ## The placing of a word (log 10) -/

/-- The four bytes of a word written at rising addresses. -/
def Memory.writeWord (m : Memory) (a : Nat) (w : Word) : Memory :=
  Memory.write (Memory.write (Memory.write (Memory.write m a (byteOfWord w 0)) (a + 1) (byteOfWord w 1)) (a + 2)
    (byteOfWord w 2)) (a + 3) (byteOfWord w 3)

theorem Memory.read_writeWord (m : Memory) (a : Nat) (w : Word) {k : Nat} (hk : k < 4) :
    Memory.read (Memory.writeWord m a w) (a + k) = byteOfWord w k := by
  interval_cases k <;> simp [Memory.writeWord, Memory.read_write]

theorem Memory.read_writeWord_other (m : Memory) {a x : Nat} (w : Word) (h : x < a ∨ a + 4 ≤ x) :
    Memory.read (Memory.writeWord m a w) x = Memory.read m x := by
  rw [Memory.writeWord, Memory.read_write_other _ _ (by omega), Memory.read_write_other _ _ (by omega),
    Memory.read_write_other _ _ (by omega), Memory.read_write_other _ _ (by omega)]

/-- Where the host places a word: at PC if its four bytes are in memory, and at 0 if not. -/
def State.placingPc (s : State) : Word := if s.cfg.memSize < s.pc.toNat + 4 then 0#32 else s.pc

theorem State.placingPc_of_le (h : s.pc.toNat + 4 ≤ s.cfg.memSize) : s.placingPc = s.pc := if_neg (Nat.not_lt.2 h)

theorem State.placingPc_le (h : 4 ≤ s.cfg.memSize) : s.placingPc.toNat + 4 ≤ s.cfg.memSize := by
  unfold State.placingPc
  split_ifs with hout
  · exact h
  · exact Nat.not_lt.1 hout

theorem State.withFetchWord_eq (s : State) (w : Word) :
    s.withFetchWord 32 w.toNat =
      { s with mem := Memory.writeWord s.mem s.placingPc.toNat w, pc := s.placingPc, run := .running } := by
  have hword : BitVec.ofNat 32 (w.toNat % 2 ^ 32) = w := by
    rw [Nat.mod_eq_of_lt w.isLt, BitVec.ofNat_toNat, BitVec.setWidth_eq]
  simp only [State.withFetchWord, hword]
  rfl

theorem State.memRead4_writeWord {addr : Word} (h : addr.toNat + 4 ≤ s.cfg.memSize) (w : Word) :
    (s.setMem (Memory.writeWord s.mem addr.toNat w)).memRead4 addr = some w := by
  have hread (k : Nat) (hk : k < 4) := Memory.read_writeWord s.mem addr.toNat w hk
  have hread0 : Memory.read (Memory.writeWord s.mem addr.toNat w) addr.toNat = byteOfWord w 0 := hread 0 (by omega)
  refine (State.memRead4_eq_some_iff ..).2 ⟨h, ?_⟩
  rw [State.setMem_mem, hread0, hread 1 (by omega), hread 2 (by omega), hread 3 (by omega), wordOfBytes_byteOfWord]

end Sys2Proof.Machine

namespace Sys2Proof
open Machine

/-! ## The statements -/

/-- Settles O17: the step is one write of the low byte, and each byte of the word at `addr` is a read of its own cell. -/
theorem theNextFetchSeesAStore : Obligations.TheNextFetchSeesAStore := by
  rintro s reg imm r addr v ⟨hr, w, hw, hd⟩ hreg hin hv
  obtain ⟨haddr, -⟩ := (State.memRead4_eq_some_iff ..).1 hv
  have hstep : step s = .next ((s.fetched w).setMem (Memory.write s.mem imm.toNat (lowByte (s.readGpr r)))) :=
    (step_of_decode_ok hr hw hd).trans (exec_store_of_gpr_of_lt (s := s.fetched w) hreg hin)
  have hafter := State.memRead4_of_le
    (s := (s.fetched w).setMem (Memory.write s.mem imm.toNat (lowByte (s.readGpr r)))) haddr
  refine ⟨_, _, hstep, hafter, fun k hk => ?byte⟩
  case byte =>
    rw [byteOfWord_of_memRead4 hafter hk, byteOfWord_of_memRead4 hv hk, State.setMem_mem, Memory.read_write,
      ofNat_toNat_eq_lowByte]

/-- Settles O39: the placed word's four bytes are in memory at the PC chosen for it, so the next fetch reads it there. -/
theorem thePlacedWordRunsNext : Obligations.ThePlacedWordRunsNext := by
  rintro s w ⟨hsize, -, -⟩
  have hread : (s.withFetchWord 32 w.toNat).memRead4 (s.withFetchWord 32 w.toNat).pc = some w := by
    rw [State.withFetchWord_eq]
    exact State.memRead4_writeWord (State.placingPc_le hsize) w
  rw [State.withFetchWord_eq] at hread ⊢
  exact ⟨rfl, hread, State.placingPc_of_le, fun a ha => Memory.read_writeWord_other s.mem w ha, rfl, rfl, rfl,
    fun i hd => step_of_decode_ok rfl hread hd⟩

/-- Settles O40: both refusals are the bounds tests themselves, and an answered write is one `Memory.write`. -/
theorem accessesCheckTheirBoundsFirst : Obligations.AccessesCheckTheirBoundsFirst := by
  refine fun s addr v => ⟨State.memRead4_eq_none_iff s addr, State.memWrite1_eq_none_iff s addr v, fun t ht => ?write⟩
  case write =>
    obtain ⟨-, rfl⟩ := (State.memWrite1_eq_some_iff ..).1 ht
    exact ⟨fun a => Memory.read_write s.mem addr.toNat a v, rfl⟩

end Sys2Proof
end
